-- ==== Sys2Proof/Word.lean ====
section
/-! DEFINITION. The types of values: words, bytes, 64-bit quantities, cell indices and the 4x4 grid (spec/00_scope.md R8, R11).
Arithmetic on them stands in Sys2Proof/Machine/Operands.lean. -/

namespace Sys2Proof

/-- A word: 32 bits, unsigned (R8). -/
abbrev Word := BitVec 32

/-- A byte: 8 bits, unsigned (R8). -/
abbrev Byte := BitVec 8

/-- A 64-bit quantity: `CTR`, `LEN`, `POS`, an address of IN or OUT (R6). -/
abbrev DWord := BitVec 64

/-- One 64-bit command word `CW`, bit 63 the most significant (spec/30_encoding.md R70). -/
abbrev CommandWord := BitVec 64

/-- A cell index `4*row + col`, 0 to 15 (R11). -/
abbrev Cell := Fin 16

/-- A WordMatrix: sixteen words, cell 0 first, in row-major order (R11, spec/10_state.md R21). -/
abbrev WordMatrix := Vector Word 16

end Sys2Proof
end

