-- ==== Sys2Proof/Syntax.lean ====
section
/-! DEFINITION. The commands of the unit, one constructor for each of the seventeen rows of spec/opcode_table.json, with
their operands already pulled out of the command word (spec/30_encoding.md R72, R73). -/

namespace Sys2Proof

/-- One command. A cell, a register number and a selector are 4-bit fields read as unsigned numbers 0 to 15, an immediate is
a 32-bit word (R72). -/
inductive Instr where
  /-- `INIT klen`: build the initial matrix from the key (R91). -/
  | init (klen : Word)
  /-- `WRCR cr, imm`: write a control register (R92). -/
  | wrcr (cr : Fin 16) (imm : Word)
  /-- `RDCR cr`: copy a control register to `RDATA` (R93). -/
  | rdcr (cr : Fin 16)
  /-- `SETW a, imm`: write a cell of `W` (R94). -/
  | setw (a : Cell) (imm : Word)
  /-- `RDM a, sel`: copy a cell of `W`, `X` or `O` to `RDATA` (R95). -/
  | rdm (a : Cell) (sel : Fin 16)
  /-- `QR a, b, c, d`: one quarter round on four cells of `W` (R111). -/
  | qr (a b c d : Cell)
  /-- `COLRND`: the column round (R123). -/
  | colrnd
  /-- `ROWRND`: the row round (R124). -/
  | rowrnd
  /-- `DBLRND`: one double round (R125). -/
  | dblrnd
  /-- `PERM`: the ten double rounds (R126). -/
  | perm
  /-- `CTRW`: the counter enters the initial matrix (R120). -/
  | ctrw
  /-- `LDW`: copy the initial matrix to the working matrix (R122). -/
  | ldw
  /-- `FFWD`: the feed-forward addition into the output matrix (R127). -/
  | ffwd
  /-- `BLOCK`: the keystream block of the current counter (R128). -/
  | block
  /-- `CTRINC`: add one to the block counter (R142). -/
  | ctrinc
  /-- `XORK m`: combine `m` bytes with the keystream block (R141). -/
  | xork (m : Word)
  /-- `COMBINE`: combine the whole buffer (R143). -/
  | combine
  deriving DecidableEq, Repr

end Sys2Proof
end

