-- ==== Sys2Proof/WellFormed.lean ====
section
/-! DEFINITION. Which commands have operand values the unit accepts: the checks of operand values that need no state
(spec/60_exceptions.md R167 (2), R161). A command that fails one still decodes and still has a meaning, which is to raise
IllegalCommand (spec/30_encoding.md R74); the operand types alone make every term encodable. -/

namespace Sys2Proof

/-- The operand values are ones the command accepts: `WRCR` names a writable register (R92), `RDCR` a defined one (R93), `RDM`
one of the three matrices (R95), and `QR` four different cells (R111). -/
def Instr.wellFormed : Instr → Bool
  | .init _ => true
  | .wrcr cr _ => decide (cr.val ≤ 5)
  | .rdcr cr => decide (cr.val ≤ 10)
  | .setw _ _ => true
  | .rdm _ sel => decide (sel.val ≤ 2)
  | .qr a b c d => decide (a ≠ b ∧ a ≠ c ∧ a ≠ d ∧ b ≠ c ∧ b ≠ d ∧ c ≠ d)
  | .colrnd => true
  | .rowrnd => true
  | .dblrnd => true
  | .perm => true
  | .ctrw => true
  | .ldw => true
  | .ffwd => true
  | .block => true
  | .ctrinc => true
  | .xork _ => true
  | .combine => true

end Sys2Proof
end

