-- ==== Sys2Proof/Decode.lean ====
section
/-! DEFINITION. The command encoding: fields, formats, the opcode map, the total decoder and the encoder
(spec/30_encoding.md R70 to R76). -/

namespace Sys2Proof

/-- The seventeen rows of the opcode map (R73). -/
inductive Op where
  | init | wrcr | rdcr | setw | rdm | qr | colrnd | rowrnd | dblrnd | perm | ctrw | ldw | ffwd | block | ctrinc | xork | combine
  deriving DecidableEq, Repr

/-- The six formats (R71): which operand fields a command uses. -/
inductive Format where
  | n | q | ai | ab | a | i
  deriving DecidableEq, Repr

/-- The operand fields of a command word (R70). -/
structure Fields where
  a : BitVec 4
  b : BitVec 4
  c : BitVec 4
  d : BitVec 4
  imm : Word
  deriving DecidableEq, Repr

/-- Why a command word decodes to no command (R74, R75). -/
inductive Illegal where
  /-- The value of `op` is in no row of the map. -/
  | unknownOpcode (op : BitVec 8)
  /-- `rsv`, or a field the format does not use, is not zero. -/
  | reservedOrUnusedNotZero
  deriving DecidableEq, Repr

/-- What the decoder answers: exactly one command, or "illegal" (R74). -/
inductive Decoded where
  | command (i : Instr)
  | illegal (why : Illegal)
  deriving DecidableEq, Repr

/-- The column `op` of R73. -/
def Op.code : Op → BitVec 8
  | .init => 0x01
  | .wrcr => 0x02
  | .rdcr => 0x03
  | .setw => 0x04
  | .rdm => 0x05
  | .qr => 0x10
  | .colrnd => 0x11
  | .rowrnd => 0x12
  | .dblrnd => 0x13
  | .perm => 0x14
  | .ctrw => 0x18
  | .ldw => 0x19
  | .ffwd => 0x1A
  | .block => 0x1B
  | .ctrinc => 0x20
  | .xork => 0x21
  | .combine => 0x22

/-- The column `format` of R73. -/
def Op.format : Op → Format
  | .init => .i
  | .wrcr => .ai
  | .rdcr => .a
  | .setw => .ai
  | .rdm => .ab
  | .qr => .q
  | .colrnd => .n
  | .rowrnd => .n
  | .dblrnd => .n
  | .perm => .n
  | .ctrw => .n
  | .ldw => .n
  | .ffwd => .n
  | .block => .n
  | .ctrinc => .n
  | .xork => .i
  | .combine => .n

/-- The rows of R73, in the order of the table. -/
def Op.rows : List Op :=
  [.init, .wrcr, .rdcr, .setw, .rdm, .qr, .colrnd, .rowrnd, .dblrnd, .perm, .ctrw, .ldw, .ffwd, .block, .ctrinc, .xork,
    .combine]

/-- The row whose `op` is the given value, if there is one (R74 (1)). -/
def Op.ofCode (op : BitVec 8) : Option Op :=
  Op.rows.find? fun o => o.code == op

/-- The column `mask` of R71: a 1 at every bit that is fixed for the format. -/
def Format.mask : Format → CommandWord
  | .n => 0xFFFFFFFFFFFFFFFF
  | .q => 0xFFFF0000FFFFFFFF
  | .ai => 0xFFFF0FFF00000000
  | .ab => 0xFFFF00FFFFFFFFFF
  | .a => 0xFFFF0FFFFFFFFFFF
  | .i => 0xFFFFFFFF00000000

/-- `match` of a command: `op << 56` (R71). -/
def Op.matchWord (o : Op) : CommandWord :=
  o.code ++ (0 : BitVec 56)

/-- `CW[63:56]` (R70). -/
def opField (cw : CommandWord) : BitVec 8 :=
  cw.extractLsb' 56 8

/-- `CW[55:48]` (R70). -/
def rsvField (cw : CommandWord) : BitVec 8 :=
  cw.extractLsb' 48 8

/-- The operand fields at their places (R70). -/
def fieldsOf (cw : CommandWord) : Fields :=
  { a := cw.extractLsb' 44 4, b := cw.extractLsb' 40 4, c := cw.extractLsb' 36 4, d := cw.extractLsb' 32 4,
    imm := cw.extractLsb' 0 32 }

/-- The upper half `CW[63:32]`, which IllegalCommand and NotInitialized record (spec/60_exceptions.md R161). -/
def upperHalf (cw : CommandWord) : Word :=
  cw.extractLsb' 32 32

/-- The command of a row with the operands of R72. -/
def Op.build (f : Fields) : Op → Instr
  | .init => .init f.imm
  | .wrcr => .wrcr f.a.toFin f.imm
  | .rdcr => .rdcr f.a.toFin
  | .setw => .setw f.a.toFin f.imm
  | .rdm => .rdm f.a.toFin f.b.toFin
  | .qr => .qr f.a.toFin f.b.toFin f.c.toFin f.d.toFin
  | .colrnd => .colrnd
  | .rowrnd => .rowrnd
  | .dblrnd => .dblrnd
  | .perm => .perm
  | .ctrw => .ctrw
  | .ldw => .ldw
  | .ffwd => .ffwd
  | .block => .block
  | .ctrinc => .ctrinc
  | .xork => .xork f.imm
  | .combine => .combine

/-- The decoder, total on 64-bit values (R74). -/
def decode (cw : CommandWord) : Decoded :=
  match Op.ofCode (opField cw) with
  | none => .illegal (.unknownOpcode (opField cw))
  | some o =>
    if cw &&& o.format.mask = o.matchWord then .command (o.build (fieldsOf cw))
    else .illegal .reservedOrUnusedNotZero

/-- The row of a command. -/
def Instr.op : Instr → Op
  | .init _ => .init
  | .wrcr _ _ => .wrcr
  | .rdcr _ => .rdcr
  | .setw _ _ => .setw
  | .rdm _ _ => .rdm
  | .qr _ _ _ _ => .qr
  | .colrnd => .colrnd
  | .rowrnd => .rowrnd
  | .dblrnd => .dblrnd
  | .perm => .perm
  | .ctrw => .ctrw
  | .ldw => .ldw
  | .ffwd => .ffwd
  | .block => .block
  | .ctrinc => .ctrinc
  | .xork _ => .xork
  | .combine => .combine

/-- No operand field used. -/
def noFields : Fields :=
  { a := 0, b := 0, c := 0, d := 0, imm := 0 }

/-- The operand fields of a command; the unused ones are zero (R71). -/
def Instr.fields : Instr → Fields
  | .init klen => { noFields with imm := klen }
  | .wrcr cr imm => { noFields with a := .ofFin cr, imm := imm }
  | .rdcr cr => { noFields with a := .ofFin cr }
  | .setw a imm => { noFields with a := .ofFin a, imm := imm }
  | .rdm a sel => { noFields with a := .ofFin a, b := .ofFin sel }
  | .qr a b c d => { noFields with a := .ofFin a, b := .ofFin b, c := .ofFin c, d := .ofFin d }
  | .colrnd => noFields
  | .rowrnd => noFields
  | .dblrnd => noFields
  | .perm => noFields
  | .ctrw => noFields
  | .ldw => noFields
  | .ffwd => noFields
  | .block => noFields
  | .ctrinc => noFields
  | .xork m => { noFields with imm := m }
  | .combine => noFields

/-- A command word from its opcode and operand fields, with `rsv` zero (R70). -/
def assemble (op : BitVec 8) (f : Fields) : CommandWord :=
  op ++ (0 : BitVec 8) ++ f.a ++ f.b ++ f.c ++ f.d ++ f.imm

/-- The encoder: the one command word of a command (R70, R71, R73). -/
def encode (i : Instr) : CommandWord :=
  assemble i.op.code i.fields

/-- The host's question: the command the decoder reads from an instruction of `nbits` bits whose value is `w`; a command word is
one 64-bit number, so bit `k` of `w` is bit `k` of the command word and the bits from `nbits` on are zero. -/
def decodeTableWord (nbits w : Nat) : Option Instr :=
  match decode (BitVec.ofNat 64 (w % 2 ^ nbits)) with
  | .command i => some i
  | .illegal _ => none

end Sys2Proof
end

