-- ==== Sys2Proof/Config.lean ====
section
/-! DEFINITION. The implementation parameters (spec/00_scope.md R6, R7): what is fixed by the spec, and the four values a
launch gives. -/

namespace Sys2Proof

/-- `WORD_LOAD_ORDER`: the byte order in which key and constant bytes become words (R12). -/
inductive LoadOrder where
  | little
  | big
  deriving DecidableEq, Repr

/-- `COUNTER_ENCODING`: the form in which the block counter enters the initial matrix (spec/42_permutation_core.md R121). -/
inductive CounterEncoding where
  | linear
  | swapped
  deriving DecidableEq, Repr

/-- The four parameters of R6 that are not fixed. They are part of the launch state of a run (spec/70_reset_and_hazards.md
R194) and no step changes them. -/
structure Params where
  /-- `NONCE_LO`, hard-wired, readable as `CR[8]` (spec/10_state.md R34). -/
  nonceLo : Word
  /-- `NONCE_HI`, hard-wired, readable as `CR[9]` (R34). -/
  nonceHi : Word
  loadOrder : LoadOrder
  counterEncoding : CounterEncoding
  deriving DecidableEq, Repr

namespace Config

/-- `NONCE_LO` is OPEN: a word the spec gives no value for (R6, R34). Log 1. -/
opaque nonceLo : Word

/-- `NONCE_HI` is OPEN: a word the spec gives no value for (R6, R34). Log 1. -/
opaque nonceHi : Word

/-- The parameters at reset: the OPEN nonce words, and the defaults `little` and `linear` of R6. Log 1. -/
def params : Params :=
  { nonceLo := nonceLo, nonceHi := nonceHi, loadOrder := .little, counterEncoding := .linear }

/-- `SIGMA`: the ASCII codes of `expand 32-byte k`, in order (R7). PRESUMED: the codes are the spec's general knowledge. Log
11. -/
def sigma : List Byte :=
  [0x65, 0x78, 0x70, 0x61, 0x6e, 0x64, 0x20, 0x33, 0x32, 0x2d, 0x62, 0x79, 0x74, 0x65, 0x20, 0x6b]

/-- `KEY_BYTES` (R6). -/
def keyBytes : Nat := 32

/-- `BLOCK_BYTES` (R6). -/
def blockBytes : Nat := 64

/-- `DOUBLE_ROUNDS` (R6). -/
def doubleRounds : Nat := 10

end Config

end Sys2Proof
end

