-- ==== Sys2Proof/Machine/State.lean ====
section
/-! DEFINITION. The state of the unit, of the host's three memories and of the host's list of commands, as plain data
(spec/10_state.md R20, spec/20_memory.md R50, spec/70_reset_and_hazards.md R194), with the state after reset (R40). -/

namespace Sys2Proof.Machine

/-- The three address spaces the unit reaches (R50). -/
inductive Space where
  | key
  | inp
  | out
  deriving DecidableEq, Repr

/-- The contents of one address space: the bytes the host has provided, addresses strictly rising. An address that is not
listed holds no byte (log 2). -/
abbrev Memory := List Host.Cell

/-- The causes of a fault of the unit (spec/60_exceptions.md R161). Raising one is a NEXT state (log 6). -/
inductive Cause where
  /-- Code 1, raised by `INIT` (R162). -/
  | keyLengthError
  /-- Code 2, raised by an illegal command word or operand value (R163). -/
  | illegalCommand
  /-- Code 3, raised by the six commands that need `INIT` (R164). -/
  | notInitialized
  /-- Code 4, raised by `XORK` (R166). -/
  | lengthError
  deriving DecidableEq, Repr

/-- What the host does next: issue a command, or one of the things it may do between two commands (R194). -/
inductive HostEvent where
  /-- Issue one command word (R90). -/
  | command (cw : CommandWord)
  /-- Reset the unit (R180). -/
  | reset
  /-- Issue a command word and reset the unit while the command runs, after it has written `written` bytes of OUT
  (R180). Log 9. -/
  | commandCutByReset (cw : CommandWord) (written : Nat)
  /-- Issue a command word and, against the host's obligation, write KEY or IN while the command runs: its reads of KEY and IN
  return what `key` and `inp` hold, a free draw (R61). Log 8. -/
  | commandWhileHostWrites (cw : CommandWord) (key inp : Memory)
  /-- Issue a command word with IN and OUT backed by one storage at the same base, the contents of IN (R66). Log 10. -/
  | commandInPlace (cw : CommandWord)
  /-- Issue a command word as in `commandWhileHostWrites` and reset the unit while the command runs (R61, R180). Log 8, log 9. -/
  | commandWhileHostWritesCutByReset (cw : CommandWord) (key inp : Memory) (written : Nat)
  /-- Issue a command word as in `commandInPlace` and reset the unit while the command runs (R66, R180). Log 21. -/
  | commandInPlaceCutByReset (cw : CommandWord) (written : Nat)
  /-- Write, and so provide, one byte of a memory (R194). -/
  | hostWrite (space : Space) (addr : DWord) (v : Byte)
  /-- Withdraw one byte of a memory, so that it is no longer provided (R58, R194). -/
  | hostWithdraw (space : Space) (addr : DWord)
  /-- Make the first `room` addresses of OUT available for writing, and no others (R58, R182 (4)). -/
  | provideOut (room : Nat)
  deriving DecidableEq, Repr

/-- The machine. -/
structure State where
  /-- The working matrix `W` (R21). -/
  w : WordMatrix
  /-- The initial matrix `X` (R22). -/
  x : WordMatrix
  /-- The output matrix `O` (R23). -/
  o : WordMatrix
  /-- The block counter `CTR = {CR[1], CR[0]}` (R28). -/
  ctr : DWord
  /-- The buffer length `LEN = {CR[3], CR[2]}` (R29). -/
  len : DWord
  /-- The buffer offset `POS = {CR[5], CR[4]}` (R30). -/
  pos : DWord
  /-- `STATUS = CR[6]`: `INITED` in bit 0, `CAUSE` in bits 11:8 (R31). -/
  status : Word
  /-- `FINFO = CR[7]` (R32). -/
  finfo : Word
  /-- `RDATA = CR[10]` (R33). -/
  rdata : Word
  /-- The implementation parameters, among them `NONCE_LO = CR[8]` and `NONCE_HI = CR[9]` (R6, R34). Log 1. -/
  cfg : Params
  /-- The KEY space (R51). -/
  key : Memory
  /-- The IN space (R52). -/
  inp : Memory
  /-- The OUT space (R53). -/
  out : Memory
  /-- How many addresses of OUT, from 0 on, the host has made available for writing (R58). Log 4. -/
  outRoom : Nat
  /-- What the host does next, in order: the model's own field for the run's command list (R194). Log 5. -/
  pending : List HostEvent
  deriving DecidableEq, Repr

/-- Why the machine is stuck: a run that reaches this has no end state (R194). A fault OF THE UNIT is not one of these: it is
a next state with `STATUS.CAUSE` set (R165). -/
inductive Fault where
  /-- Raised by `INIT`, `XORK` and `COMBINE` when the host's memory does not admit an access to this address of this space:
  KEY or IN does not hold the byte, or OUT has no room for it (R58; spec/93_implementation_defined.md U27). Safe: the spec
  gives such a run no end state. -/
  | accessNotAdmitted (space : Space) (addr : Nat)
  deriving DecidableEq, Repr

/-- Why a step gives no meaning. -/
inductive Refusal where
  /-- Raised by an arm of `exec` whose instruction has no meaning yet. Safe. No arm raises it in this model. -/
  | notModelled (mnemonic : String)
  /-- Raised by `step` when the host has issued everything: the run has ended (R194). Safe. -/
  | runEnded
  deriving DecidableEq, Repr

/-- The grid with every cell zero. -/
def zeroMatrix : WordMatrix :=
  #v[0, 0, 0, 0, 0, 0, 0, 0, 0, 0, 0, 0, 0, 0, 0, 0]

/-- The machine right after reset: every register and matrix at the value of R40, the parameters of R6, nothing placed in the
host's memories (log 2), all of OUT available (log 4), nothing issued (log 5). -/
def State.reset : State :=
  { w := zeroMatrix, x := zeroMatrix, o := zeroMatrix, ctr := 0, len := 0, pos := 0, status := 0, finfo := 0, rdata := 0,
    cfg := Config.params, key := [], inp := [], out := [], outRoom := 2 ^ 64, pending := [] }

end Sys2Proof.Machine
end

