-- ==== Sys2Proof/Machine/Flags.lean ====
section
/-! DEFINITION. The status register's fields (spec/10_state.md R31). The unit has no arithmetic flags (R26): no command
computes a carry, an overflow or a zero flag, so these two fields are all there is. -/

namespace Sys2Proof.Machine

/-- The code of a cause in `STATUS.CAUSE` (spec/60_exceptions.md R161); 0 is no fault. -/
def Cause.code : Cause → BitVec 4
  | .keyLengthError => 1
  | .illegalCommand => 2
  | .notInitialized => 3
  | .lengthError => 4

/-- `STATUS.INITED`, bit 0 (R31). -/
def initedOf (status : Word) : Bool :=
  status.getLsbD 0

/-- `STATUS.CAUSE`, bits 11:8 (R31). -/
def causeOf (status : Word) : BitVec 4 :=
  status.extractLsb' 8 4

/-- `STATUS.INITED <- 1`, the other bits as they were. -/
def setInited (status : Word) : Word :=
  status ||| 1

/-- `STATUS.CAUSE <- code`, the other bits as they were. -/
def setCause (status : Word) (code : BitVec 4) : Word :=
  status.extractLsb' 12 20 ++ code ++ status.extractLsb' 0 8

/-- The bits of `STATUS` that are reserved and read as 0: 7:1 and 31:12 (R31). -/
def statusReserved (status : Word) : Word :=
  status &&& 0xFFFFF0FE

/-- `INITED` of a state. -/
def State.inited (s : State) : Bool :=
  initedOf s.status

/-- `CAUSE` of a state. -/
def State.cause (s : State) : BitVec 4 :=
  causeOf s.status

/-- The fault state: `STATUS.CAUSE ≠ 0` (spec/60_exceptions.md R168). -/
abbrev State.faulted (s : State) : Prop :=
  s.cause ≠ 0

end Sys2Proof.Machine
end

