-- ==== Sys2Proof/Machine/Ops.lean ====
section
/-! DEFINITION. The shared operations: cells of a matrix, bytes of the host's memories, fault entry, the checks every command
makes, reset, and an illegal command word (spec/00_scope.md R10, spec/20_memory.md, spec/40_matrix_and_init.md R90,
spec/60_exceptions.md R165 and R168, spec/70_reset_and_hazards.md R180). -/

namespace Sys2Proof.Machine

/-- The outcome of a step of this machine. -/
abbrev Result := Host.Outcome State Fault Refusal

/-! Cells of a matrix (R10). -/

/-- Read cell `i`. -/
def cellOf (m : WordMatrix) (i : Cell) : Word :=
  m[i.val]

/-- Write cell `i`. -/
def setCell (m : WordMatrix) (i : Cell) (v : Word) : WordMatrix :=
  m.set i.val v

/-- The grid whose cell `i` is `f i`. -/
def gridOf (f : Cell → Word) : WordMatrix :=
  #v[f 0, f 1, f 2, f 3, f 4, f 5, f 6, f 7, f 8, f 9, f 10, f 11, f 12, f 13, f 14, f 15]

/-! Bytes of the host's memories (R50 to R53, R58). -/

/-- The canonical form: addresses strictly rising and inside a 64-bit space. -/
def Memory.wf : Memory → Bool
  | [] => true
  | [(a, _)] => decide (a < 2 ^ 64)
  | (a, _) :: (b, v) :: rest => decide (a < b) && Memory.wf ((b, v) :: rest)

/-- The byte at an address; none where the host has provided no byte, which is what an unlisted address reads as. Log 2. -/
def Memory.read : Memory → Nat → Option Byte
  | [], _ => none
  | (k, v) :: rest, a => if k = a then some v else Memory.read rest a

/-- Write the byte at an address, keeping the addresses rising. -/
def Memory.write : Memory → Nat → Byte → Memory
  | [], a, v => [(a, v)]
  | (k, u) :: rest, a, v =>
    if a < k then (a, v) :: (k, u) :: rest
    else if a = k then (a, v) :: rest
    else (k, u) :: Memory.write rest a v

/-- Withdraw the byte at an address. -/
def Memory.erase : Memory → Nat → Memory
  | [], _ => []
  | (k, u) :: rest, a => if k = a then rest else (k, u) :: Memory.erase rest a

/-- The contents of a space. -/
def State.memory (s : State) : Space → Memory
  | .key => s.key
  | .inp => s.inp
  | .out => s.out

/-- The state with other contents of a space. -/
def State.setMemory (s : State) (space : Space) (m : Memory) : State :=
  match space with
  | .key => { s with key := m }
  | .inp => { s with inp := m }
  | .out => { s with out := m }

/-- `MemRead(space, addr, 1)` on the contents of the space (R10): a byte the host has not provided is not admitted (R58). -/
def memRead (space : Space) (m : Memory) (addr : Nat) : Except Fault Byte :=
  match Memory.read m addr with
  | some v => .ok v
  | none => .error (.accessNotAdmitted space addr)

/-- `MemWrite(OUT, addr, 1, v)` on the contents of OUT (R10): an address beyond the room the host gave is not admitted (R58). -/
def memWrite (room : Nat) (m : Memory) (addr : Nat) (v : Byte) : Except Fault Memory :=
  if addr < room then .ok (Memory.write m addr v) else .error (.accessNotAdmitted .out addr)

/-- The `n` bytes from `addr` on, read one at a time in ascending order (R60). -/
def memReadBytes (space : Space) (m : Memory) : (addr n : Nat) → Except Fault (List Byte)
  | _, 0 => .ok []
  | addr, n + 1 =>
    match memRead space m addr with
    | .error f => .error f
    | .ok v =>
      match memReadBytes space m (addr + 1) n with
      | .error f => .error f
      | .ok vs => .ok (v :: vs)

/-- A command that got through ends in its state; one whose access was refused is stuck (R58). -/
def settle : Except Fault State → Result
  | .ok s => .next s
  | .error f => .fault f

/-! Faults of the unit. -/

/-- Fault entry `raise F(info)`: `STATUS.CAUSE` and `FINFO`, nothing else (R165). It transfers control nowhere (R160), and
nothing but reset returns from it (R169). -/
def raise (c : Cause) (info : Word) (s : State) : State :=
  { s with status := setCause s.status c.code, finfo := info }

/-- `raise F(CW[63:32])` by a decoded command (R161): the command word is the command's one encoding. Log 7. -/
def raiseBy (c : Cause) (i : Instr) (s : State) : State :=
  raise c (upperHalf (encode i)) s

/-- What every command but a legal `RDCR` or `RDM` does first: in the fault state it has no effect at all (R90, R168). -/
def unlessFaulted (s : State) (k : Result) : Result :=
  if s.faulted then .next s else k

/-- The check of `STATUS.INITED` (R164). -/
def whenInited (i : Instr) (s : State) (k : Result) : Result :=
  if s.inited then k else .next (raiseBy .notInitialized i s)

/-- A command word that decodes to no command: IllegalCommand, unless the unit is in the fault state (R75, R90, R163, R168). -/
def illegalWord (cw : CommandWord) (s : State) : Result :=
  unlessFaulted s (.next (raise .illegalCommand (upperHalf cw) s))

/-! Reset. -/

/-- Reset of the unit: every piece of its own state at the value of spec/10_state.md R40. The hard-wired nonce words and the
other parameters, the host's memories and what the host does next are not touched (R180, R181). -/
def resetUnit (s : State) : State :=
  { s with
    w := zeroMatrix, x := zeroMatrix, o := zeroMatrix, ctr := 0, len := 0, pos := 0, status := 0, finfo := 0, rdata := 0 }

end Sys2Proof.Machine
end

