-- ==== Sys2Proof/Machine/Operands.lean ====
section
/-! DEFINITION. Arithmetic on words and bytes, the operand forms of the commands (control registers, matrices, lengths), word
assembly from bytes, the counter encoding and the keystream view (spec/00_scope.md R9, R12; spec/10_state.md R27;
spec/30_encoding.md R72; spec/42_permutation_core.md R121, R129). -/

namespace Sys2Proof.Machine

/-! Arithmetic (R9). -/

/-- `add32`: addition modulo 2^32, the carry dropped. -/
def add32 (x y : Word) : Word :=
  x + y

/-- `rotl32`: left rotation by `1 ≤ r ≤ 31`. -/
def rotl32 (x : Word) (r : Nat) : Word :=
  x <<< r ||| x >>> (32 - r)

/-- `xor32`. -/
def xor32 (x y : Word) : Word :=
  x ^^^ y

/-- `xor8`. -/
def xor8 (x y : Byte) : Byte :=
  x ^^^ y

/-- `add64`: addition modulo 2^64. -/
def add64 (x y : DWord) : DWord :=
  x + y

/-- `bswap32`. -/
def bswap32 (x : Word) : Word :=
  x.extractLsb' 0 8 ++ x.extractLsb' 8 8 ++ x.extractLsb' 16 8 ++ x.extractLsb' 24 8

/-! Words from bytes and bytes from words (R12). -/

/-- `load32`: a word from four bytes, `b0` the one at the lowest index. -/
def load32 (order : LoadOrder) (b0 b1 b2 b3 : Byte) : Word :=
  match order with
  | .little => b3 ++ b2 ++ b1 ++ b0
  | .big => b0 ++ b1 ++ b2 ++ b3

/-- Word `j` of a byte sequence: `load32` of its bytes `4j` to `4j + 3`. -/
def loadWord (order : LoadOrder) (bytes : List Byte) (j : Nat) : Word :=
  load32 order (bytes.getD (4 * j) 0) (bytes.getD (4 * j + 1) 0) (bytes.getD (4 * j + 2) 0) (bytes.getD (4 * j + 3) 0)

/-- Byte `n` of a word, byte 0 the least significant: `store32le` byte by byte. -/
def byteOf (w : Word) (n : Nat) : Byte :=
  w.extractLsb' (8 * n) 8

/-- `KS(k)`: byte `k` of the keystream block, a view of `O` (R129), for `k` from 0 to 63. -/
def ks (o : WordMatrix) (k : Nat) : Byte :=
  byteOf (cellOf o (Fin.ofNat 16 (k / 4))) (k % 4)

/-! The counter encoding (R121). -/

/-- `ctr_lo`. -/
def ctrLo (e : CounterEncoding) (ctr : DWord) : Word :=
  match e with
  | .linear => ctr.extractLsb' 0 32
  | .swapped => bswap32 (ctr.extractLsb' 0 32)

/-- `ctr_hi`. PRESUMED: under `swapped` the high word is 0 by the spec's general knowledge. Log 12. -/
def ctrHi (e : CounterEncoding) (ctr : DWord) : Word :=
  match e with
  | .linear => ctr.extractLsb' 32 32
  | .swapped => 0

/-! Control registers (spec/10_state.md R27). -/

/-- The low half of a 64-bit quantity. -/
def lowHalf (v : DWord) : Word :=
  v.extractLsb' 0 32

/-- The high half of a 64-bit quantity. -/
def highHalf (v : DWord) : Word :=
  v.extractLsb' 32 32

/-- Replace the low half. -/
def setLowHalf (v : DWord) (imm : Word) : DWord :=
  highHalf v ++ imm

/-- Replace the high half. -/
def setHighHalf (v : DWord) (imm : Word) : DWord :=
  imm ++ lowHalf v

/-- `CR[cr]`; none for the reserved numbers 11 to 15 (R35). -/
def readCR (s : State) (cr : Fin 16) : Option Word :=
  match cr.val with
  | 0 => some (lowHalf s.ctr)
  | 1 => some (highHalf s.ctr)
  | 2 => some (lowHalf s.len)
  | 3 => some (highHalf s.len)
  | 4 => some (lowHalf s.pos)
  | 5 => some (highHalf s.pos)
  | 6 => some s.status
  | 7 => some s.finfo
  | 8 => some s.cfg.nonceLo
  | 9 => some s.cfg.nonceHi
  | 10 => some s.rdata
  | _ => none

/-- `CR[cr] <- imm` by the host; none for the read-only numbers 6 to 10 and the reserved ones (R35). -/
def writeCR (s : State) (cr : Fin 16) (imm : Word) : Option State :=
  match cr.val with
  | 0 => some { s with ctr := setLowHalf s.ctr imm }
  | 1 => some { s with ctr := setHighHalf s.ctr imm }
  | 2 => some { s with len := setLowHalf s.len imm }
  | 3 => some { s with len := setHighHalf s.len imm }
  | 4 => some { s with pos := setLowHalf s.pos imm }
  | 5 => some { s with pos := setHighHalf s.pos imm }
  | _ => none

/-! The other operand checks. -/

/-- The matrix a selector of `RDM` names; none for 3 to 15 (R72 (c)). -/
def selectMatrix (s : State) (sel : Fin 16) : Option WordMatrix :=
  match sel.val with
  | 0 => some s.w
  | 1 => some s.x
  | 2 => some s.o
  | _ => none

/-- Four cells that are pairwise distinct (R111). -/
def distinctCells (a b c d : Cell) : Bool :=
  a != b && a != c && a != d && b != c && b != d && c != d

/-- The length check of `XORK m`: at most a block, and `POS + m <= LEN` as unbounded integers (R141). -/
def lengthAllowed (s : State) (m : Word) : Bool :=
  decide (m.toNat ≤ Config.blockBytes) && decide (s.pos.toNat + m.toNat ≤ s.len.toNat)

end Sys2Proof.Machine
end

