-- ==== Sys2Proof/Machine/QuarterRound.lean ====
section
/-! DEFINITION. The quarter round: the ARX step and `QR` (spec/41_quarter_round.md R110, R111). -/

namespace Sys2Proof.Machine

/-- The ARX step: `W[t] <- xor32(W[t], rotl32(add32(W[u], W[v]), r))` (R110). -/
def arx (m : WordMatrix) (t u v : Cell) (r : Nat) : WordMatrix :=
  setCell m t (xor32 (cellOf m t) (rotl32 (add32 (cellOf m u) (cellOf m v)) r))

/-- The four ARX steps in their fixed order, each on the result of the ones before it (R111, R184). Irreducible, so that no
elaborator runs the rounds of a whole block while it compares two states; the kernel evaluates it, and `unfold` opens it. -/
@[irreducible] def quarterRound (m : WordMatrix) (a b c d : Cell) : WordMatrix :=
  let m := arx m b a d 7
  let m := arx m c b a 9
  let m := arx m d c b 13
  arx m a d c 18

/-- `QR a, b, c, d` (R111). -/
def execQr (a b c d : Cell) (s : State) : Result :=
  unlessFaulted s <|
    if distinctCells a b c d then .next { s with w := quarterRound s.w a b c d }
    else .next (raiseBy .illegalCommand (.qr a b c d) s)

end Sys2Proof.Machine
end

