-- ==== Sys2Proof/Machine/Permutation.lean ====
section
/-! DEFINITION. The permutation engine and keystream block generator: `COLRND`, `ROWRND`, `DBLRND`, `PERM`, `CTRW`, `LDW`, `FFWD`,
`BLOCK` (spec/42_permutation_core.md R120 to R128). -/

namespace Sys2Proof.Machine

/-- The column round (R123): each group is an ordered operand list (spec/90_conflicts.md C5). -/
def columnRound (m : WordMatrix) : WordMatrix :=
  let m := quarterRound m 0 4 8 12
  let m := quarterRound m 5 9 13 1
  let m := quarterRound m 10 14 2 6
  quarterRound m 15 3 7 11

/-- The row round (R124). -/
def rowRound (m : WordMatrix) : WordMatrix :=
  let m := quarterRound m 0 1 2 3
  let m := quarterRound m 5 6 7 4
  let m := quarterRound m 10 11 8 9
  quarterRound m 15 12 13 14

/-- The double round: the column round first, the row round on its result (R125, R185). -/
def doubleRound (m : WordMatrix) : WordMatrix :=
  rowRound (columnRound m)

/-- `n` double rounds back to back on the same matrix (R126, R185). -/
def doubleRounds : Nat → WordMatrix → WordMatrix
  | 0, m => m
  | n + 1, m => doubleRounds n (doubleRound m)

/-- The ten double rounds (R126). -/
def permute (m : WordMatrix) : WordMatrix :=
  doubleRounds Config.doubleRounds m

/-- The counter written into cells 8 and 9 of a matrix (R120). -/
def withCounter (e : CounterEncoding) (ctr : DWord) (x : WordMatrix) : WordMatrix :=
  setCell (setCell x 8 (ctrLo e ctr)) 9 (ctrHi e ctr)

/-- The cell-wise sum of two matrices (R127). -/
def feedForward (w x : WordMatrix) : WordMatrix :=
  gridOf fun i => add32 (cellOf w i) (cellOf x i)

/-- The effect of `CTRW` (R120). -/
def writeCounter (s : State) : State :=
  { s with x := withCounter s.cfg.counterEncoding s.ctr s.x }

/-- The effect of `LDW` (R122). -/
def loadWorking (s : State) : State :=
  { s with w := s.x }

/-- The effect of `PERM` (R126). -/
def permuteWorking (s : State) : State :=
  { s with w := permute s.w }

/-- The effect of `FFWD` (R127). -/
def addInitial (s : State) : State :=
  { s with o := feedForward s.w s.x }

/-- The effect of `BLOCK`: `CTRW`, `LDW`, `PERM`, `FFWD` (R128). -/
def makeBlock (s : State) : State :=
  addInitial (permuteWorking (loadWorking (writeCounter s)))

/-- `COLRND` (R123). -/
def execColrnd (s : State) : Result :=
  unlessFaulted s (.next { s with w := columnRound s.w })

/-- `ROWRND` (R124). -/
def execRowrnd (s : State) : Result :=
  unlessFaulted s (.next { s with w := rowRound s.w })

/-- `DBLRND` (R125). -/
def execDblrnd (s : State) : Result :=
  unlessFaulted s (.next { s with w := doubleRound s.w })

/-- `PERM` (R126). -/
def execPerm (s : State) : Result :=
  unlessFaulted s (.next (permuteWorking s))

/-- `CTRW` (R120). -/
def execCtrw (s : State) : Result :=
  unlessFaulted s (whenInited .ctrw s (.next (writeCounter s)))

/-- `LDW` (R122). -/
def execLdw (s : State) : Result :=
  unlessFaulted s (whenInited .ldw s (.next (loadWorking s)))

/-- `FFWD` (R127). -/
def execFfwd (s : State) : Result :=
  unlessFaulted s (whenInited .ffwd s (.next (addInitial s)))

/-- `BLOCK` (R128). -/
def execBlock (s : State) : Result :=
  unlessFaulted s (whenInited .block s (.next (makeBlock s)))

end Sys2Proof.Machine
end

