-- ==== Sys2Proof/Machine/Cipher.lean ====
section
/-! DEFINITION. The XOR combiner, the block counter and the main loop: `CTRINC`, `XORK`, `COMBINE` (spec/43_cipher_engine.md R141 to
R143). -/

namespace Sys2Proof.Machine

/-- The bytes `0` to `m - 1` of the combination, in ascending order: byte `k` is read from IN at `pos + k`, combined with `KS(k)`
and written to OUT at `pos + k`, before byte `k + 1` is read (R141, spec/20_memory.md R60 (c)). It gives the contents of OUT
after them. -/
def combineBytes (inp : Memory) (room : Nat) (o : WordMatrix) (pos : Nat) : (m : Nat) → (out : Memory) → Except Fault Memory
  | 0, out => .ok out
  | k + 1, out =>
    match combineBytes inp room o pos k out with
    | .error f => .error f
    | .ok out' =>
      match memRead .inp inp (pos + k) with
      | .error f => .error f
      | .ok v => memWrite room out' (pos + k) (xor8 v (ks o k))

/-- The same loop where the host backs IN and OUT with one storage at the same base, so that each byte is read from what the
loop has written so far (spec/20_memory.md R66). The step of an in-place command uses the loop above on a copy, which gives the
same bytes (log 10). -/
def combineBytesInPlace (room : Nat) (o : WordMatrix) (pos : Nat) : (m : Nat) → (mem : Memory) → Except Fault Memory
  | 0, mem => .ok mem
  | k + 1, mem =>
    match combineBytesInPlace room o pos k mem with
    | .error f => .error f
    | .ok mem' =>
      match memRead .inp mem' (pos + k) with
      | .error f => .error f
      | .ok v => memWrite room mem' (pos + k) (xor8 v (ks o k))

/-- The effect of `XORK m` past its checks: the bytes, then `POS <- POS + m` (R141). -/
def xorBytes (m : Nat) (s : State) : Except Fault State :=
  match combineBytes s.inp s.outRoom s.o s.pos.toNat m s.out with
  | .error f => .error f
  | .ok out => .ok { s with out := out, pos := s.pos + BitVec.ofNat 64 m }

/-- The effect of `CTRINC` (R142). -/
def incCounter (s : State) : State :=
  { s with ctr := add64 s.ctr 1 }

/-- One turn of the main loop: `BLOCK`, `XORK 64`, `CTRINC` (R143). -/
def combineBlock (s : State) : Except Fault State :=
  match xorBytes Config.blockBytes (makeBlock s) with
  | .error f => .error f
  | .ok t => .ok (incCounter t)

/-- `n` turns of the main loop (R143). -/
def combineBlocks : (n : Nat) → State → Except Fault State
  | 0, s => .ok s
  | n + 1, s =>
    match combineBlocks n s with
    | .error f => .error f
    | .ok t => combineBlock t

/-- The trailing partial block of `r` bytes, `0 ≤ r ≤ 63`: nothing where there is none, and no `CTRINC` (R143,
spec/90_conflicts.md C10). -/
def combineTail (r : Nat) (s : State) : Except Fault State :=
  if r = 0 then .ok s else xorBytes r (makeBlock s)

/-- The effect of `COMBINE` past its check on a buffer of `n` bytes: `POS <- 0`, the full blocks, the tail (R143). -/
def combineBuffer (n : Nat) (s : State) : Except Fault State :=
  match combineBlocks (n / Config.blockBytes) { s with pos := 0 } with
  | .error f => .error f
  | .ok t => combineTail (n % Config.blockBytes) t

/-- `CTRINC` (R142). -/
def execCtrinc (s : State) : Result :=
  unlessFaulted s (.next (incCounter s))

/-- `XORK m` (R141). -/
def execXork (m : Word) (s : State) : Result :=
  unlessFaulted s <| whenInited (.xork m) s <|
    if lengthAllowed s m then settle (xorBytes m.toNat s) else .next (raise .lengthError m s)

/-- `COMBINE` (R143). -/
def execCombine (s : State) : Result :=
  unlessFaulted s (whenInited .combine s (settle (combineBuffer s.len.toNat s)))

end Sys2Proof.Machine
end

