-- ==== Sys2Proof/Machine/MatrixInit.lean ====
section
/-! DEFINITION. WordMatrix access and StateInitializer: `INIT`, `WRCR`, `RDCR`, `SETW`, `RDM` (spec/40_matrix_and_init.md R91 to
R95). -/

namespace Sys2Proof.Machine

/-- The initial matrix of a key, by the cell layout of spec/10_state.md R24, with the counter cells zero (R91). -/
def initialMatrix (p : Params) (key : List Byte) : WordMatrix :=
  let kw := loadWord p.loadOrder key
  let cw := loadWord p.loadOrder Config.sigma
  #v[cw 0, kw 0, kw 1, kw 2,
     kw 3, cw 1, p.nonceLo, p.nonceHi,
     0, 0, cw 2, kw 4,
     kw 5, kw 6, kw 7, cw 3]

/-- What `INIT` writes once it has the key bytes (R91). -/
def initWith (key : List Byte) (s : State) : State :=
  { s with x := initialMatrix s.cfg key, ctr := 0, status := setInited s.status }

/-- `INIT klen` (R91, R162). -/
def execInit (klen : Word) (s : State) : Result :=
  unlessFaulted s <|
    if klen.toNat ≠ Config.keyBytes then .next (raise .keyLengthError klen s)
    else
      match memReadBytes .key s.key 0 Config.keyBytes with
      | .error f => .fault f
      | .ok bytes => .next (initWith bytes s)

/-- `WRCR cr, imm` (R92). -/
def execWrcr (cr : Fin 16) (imm : Word) (s : State) : Result :=
  unlessFaulted s <|
    match writeCR s cr imm with
    | some t => .next t
    | none => .next (raiseBy .illegalCommand (.wrcr cr imm) s)

/-- `RDCR cr` (R93); with a defined register it executes in the fault state too (R168). -/
def execRdcr (cr : Fin 16) (s : State) : Result :=
  match readCR s cr with
  | some v => .next { s with rdata := v }
  | none => unlessFaulted s (.next (raiseBy .illegalCommand (.rdcr cr) s))

/-- `SETW a, imm` (R94). -/
def execSetw (a : Cell) (imm : Word) (s : State) : Result :=
  unlessFaulted s (.next { s with w := setCell s.w a imm })

/-- `RDM a, sel` (R95); with a selector of a matrix it executes in the fault state too (R168). -/
def execRdm (a : Cell) (sel : Fin 16) (s : State) : Result :=
  match selectMatrix s sel with
  | some m => .next { s with rdata := cellOf m a }
  | none => unlessFaulted s (.next (raiseBy .illegalCommand (.rdm a sel) s))

end Sys2Proof.Machine
end

