-- ==== Sys2Proof/Machine/Dispatch.lean ====
section
/-! DEFINITION. The meaning of every command: one arm a constructor (spec/40_matrix_and_init.md R90). -/

namespace Sys2Proof.Machine

def exec (i : Instr) (s : State) : Host.Outcome State Fault Refusal :=
  match i with
  | .init klen => Sys2Proof.Machine.execInit klen s
  | .wrcr cr imm => Sys2Proof.Machine.execWrcr cr imm s
  | .rdcr cr => Sys2Proof.Machine.execRdcr cr s
  | .setw a imm => Sys2Proof.Machine.execSetw a imm s
  | .rdm a sel => Sys2Proof.Machine.execRdm a sel s
  | .qr a b c d => Sys2Proof.Machine.execQr a b c d s
  | .colrnd => Sys2Proof.Machine.execColrnd s
  | .rowrnd => Sys2Proof.Machine.execRowrnd s
  | .dblrnd => Sys2Proof.Machine.execDblrnd s
  | .perm => Sys2Proof.Machine.execPerm s
  | .ctrw => Sys2Proof.Machine.execCtrw s
  | .ldw => Sys2Proof.Machine.execLdw s
  | .ffwd => Sys2Proof.Machine.execFfwd s
  | .block => Sys2Proof.Machine.execBlock s
  | .ctrinc => Sys2Proof.Machine.execCtrinc s
  | .xork m => Sys2Proof.Machine.execXork m s
  | .combine => Sys2Proof.Machine.execCombine s

end Sys2Proof.Machine
end

