-- ==== Sys2Proof/Machine/HostSide.lean ====
section
/-! DEFINITION. What the host does: issue a command (spec/40_matrix_and_init.md R90), change its memories between two commands
(spec/70_reset_and_hazards.md R194) or while a command runs (spec/20_memory.md R61), and reset the unit while a command runs
(R180). -/

namespace Sys2Proof.Machine

/-- The machine as the host sees it for its next action: one entry of its list consumed. -/
def State.consume (s : State) : State :=
  { s with pending := s.pending.tail }

/-- One command word, issued to a unit that is free (R90). -/
def runWord (cw : CommandWord) (s : State) : Result :=
  match decode cw with
  | .command i => exec i s
  | .illegal _ => illegalWord cw s

/-- What `run` does while the host writes KEY or IN, which it must not do: what a command reads there is a free draw, held by `key`
and `inp` (R61; a command reads each address at most once, R57). What the host leaves in KEY and IN it says by its next actions.
Log 8. -/
def drawing (key inp : Memory) (run : State → Result) (s : State) : Result :=
  match run { s with key := key, inp := inp } with
  | .next t => .next { t with key := s.key, inp := s.inp }
  | .fault f => .fault f
  | .refused r => .refused r

/-- What `run` does with IN and OUT backed by one storage at the same base: what it does with distinct storage that holds the same
bytes (R66), and afterwards both are that storage. Log 10. -/
def inOneStorage (run : State → Result) (s : State) : Result :=
  match run { s with out := s.inp } with
  | .next t => .next { t with inp := t.out }
  | .fault f => .fault f
  | .refused r => .refused r

/-- A command while the host writes KEY or IN (R61). -/
def runWhileHostWrites (cw : CommandWord) (key inp : Memory) (s : State) : Result :=
  drawing key inp (runWord cw) s

/-- A command with IN and OUT backed by one storage (R66). -/
def runInPlace (cw : CommandWord) (s : State) : Result :=
  inOneStorage (runWord cw) s

/-- The host writes, and so provides, one byte. -/
def hostWrite (space : Space) (addr : DWord) (v : Byte) (s : State) : State :=
  s.setMemory space (Memory.write (s.memory space) addr.toNat v)

/-- The host withdraws one byte. -/
def hostWithdraw (space : Space) (addr : DWord) (s : State) : State :=
  s.setMemory space (Memory.erase (s.memory space) addr.toNat)

/-- How far a command has come when it is abandoned after it has written `written` bytes of OUT (or all it writes, if they are
fewer): only `XORK` and `COMBINE`, when their checks pass, write OUT, from their first address on and in ascending order
(R141, R143, spec/20_memory.md R60); `COMBINE` has then done what it does on a buffer of that many bytes. -/
def partWay (i : Instr) (written : Nat) (s : State) : Except Fault State :=
  match i with
  | .xork m =>
    if s.faulted ∨ ¬ s.inited ∨ ¬ lengthAllowed s m then .ok s else xorBytes (min written m.toNat) s
  | .combine =>
    if s.faulted ∨ ¬ s.inited then .ok s else combineBuffer (min written s.len.toNat) s
  | _ => .ok s

/-- A command that reset abandons: the OUT bytes it has written stay written, the rest are not, and the unit is reset (R180).
Log 9. -/
def cutByReset (cw : CommandWord) (written : Nat) (s : State) : Result :=
  match decode cw with
  | .illegal _ => .next (resetUnit s)
  | .command i =>
    match partWay i written s with
    | .error f => .fault f
    | .ok t => .next (resetUnit t)

/-- A command that reset abandons while the host writes KEY or IN (R61, R180). Log 8, log 9. -/
def cutWhileHostWrites (cw : CommandWord) (key inp : Memory) (written : Nat) (s : State) : Result :=
  drawing key inp (cutByReset cw written) s

/-- A command with IN and OUT backed by one storage that reset abandons: the bytes already written stay, in the place of the input
bytes they overwrote, and the rest of the storage is as before (R66, R180). Log 21. -/
def cutInPlace (cw : CommandWord) (written : Nat) (s : State) : Result :=
  inOneStorage (cutByReset cw written) s

end Sys2Proof.Machine
end

