-- ==== Sys2Proof/Machine/Step.lean ====
section
/-! DEFINITION. One step: the host's next action (spec/70_reset_and_hazards.md R194), for a command word the execution of
spec/40_matrix_and_init.md R90. -/

namespace Sys2Proof.Machine

/-- The host's next action. When it has done everything, the run has ended and there is no step (R194). -/
def step (s : State) : Host.Outcome State Fault Refusal :=
  match s.pending with
  | [] => .refused .runEnded
  | .command cw :: _ => runWord cw s.consume
  | .reset :: _ => .next (resetUnit s.consume)
  | .commandCutByReset cw written :: _ => cutByReset cw written s.consume
  | .commandWhileHostWrites cw key inp :: _ => runWhileHostWrites cw key inp s.consume
  | .commandInPlace cw :: _ => runInPlace cw s.consume
  | .commandWhileHostWritesCutByReset cw key inp written :: _ => cutWhileHostWrites cw key inp written s.consume
  | .commandInPlaceCutByReset cw written :: _ => cutInPlace cw written s.consume
  | .hostWrite space addr v :: _ => .next (hostWrite space addr v s.consume)
  | .hostWithdraw space addr :: _ => .next (hostWithdraw space addr s.consume)
  | .provideOut room :: _ => .next { s.consume with outRoom := room }

/-- The host's question: the state in which the host issues the command word `w` (of `nbits` bits, those above zero) next. The
unit fetches nothing (spec/10_state.md R25); a command comes from the host's list, so the word goes to the head of it. -/
def State.withFetchWord (s : State) (nbits w : Nat) : State :=
  { s with pending := .command (BitVec.ofNat 64 (w % 2 ^ nbits)) :: s.pending }

end Sys2Proof.Machine
end

