-- ==== Sys2Proof/Safety.lean ====
section
/-! DEFINITION. What a run is, when it went right, and the invariant of the machine (spec/70_reset_and_hazards.md R194,
spec/10_state.md R31, R32, R40). -/

namespace Sys2Proof.Machine

/-- A run went right: the host has issued everything and no fault was recorded (R194). -/
def State.Final (s : State) : Prop :=
  s.pending = [] ∧ s.cause = 0

/-- The end state of a run of `k` of the host's actions, if it has one. -/
def RunsTo (k : Nat) (s t : State) : Prop :=
  Host.Core.run Sys2Proof.core k s = .next t

/-- The action is a reset of the unit, or has one in it (R180). -/
def HostEvent.resets : HostEvent → Bool
  | .command _ => false
  | .reset => true
  | .commandCutByReset _ _ => true
  | .commandWhileHostWrites _ _ _ => false
  | .commandInPlace _ => false
  | .commandWhileHostWritesCutByReset _ _ _ _ => true
  | .commandInPlaceCutByReset _ _ => true
  | .hostWrite _ _ _ => false
  | .hostWithdraw _ _ => false
  | .provideOut _ => false

/-- The host resets the unit at some point of its list. -/
def State.willReset (s : State) : Bool :=
  s.pending.any HostEvent.resets

/-- What holds of the machine in every state a run can reach: the host's memories have the canonical form; the reserved bits of
`STATUS` are 0 and `CAUSE` is one of the codes 0 to 4 (R31); `FINFO` is 0 while there is no fault (R32); and until the first
`INIT` the initial and the output matrix are zero, as reset left them (R40). -/
structure State.Inv (s : State) : Prop where
  key_wf : Memory.wf s.key = true
  inp_wf : Memory.wf s.inp = true
  out_wf : Memory.wf s.out = true
  reserved_zero : s.status &&& 0xFFFFF0FE = 0
  cause_listed : s.cause ≤ 4
  finfo_zero : s.cause = 0 → s.finfo = 0
  x_zero : s.inited = false → s.x = zeroMatrix
  o_zero : s.inited = false → s.o = zeroMatrix

end Sys2Proof.Machine
end

