-- ==== Sys2Proof/Certificates/Slice0/Obligations.lean ====
section
/-! DEFINITION. The statements for the provers, with the few notions they are written in. Each docstring names the rules of spec/
it formalises. A statement's conclusion gives the whole next state: `t = { s with … }` says that every field not named is
unchanged. -/

namespace Sys2Proof.Claims

open Sys2Proof.Machine

/-- The commands one after another, with nothing between them. -/
def inTurn : List Instr → State → Result
  | [], s => .next s
  | i :: rest, s =>
    match exec i s with
    | .next t => inTurn rest t
    | .fault f => .fault f
    | .refused r => .refused r

/-- `KS(k)` as R129 writes it, on an output matrix, for `k` from 0 to 63. -/
def keystream (o : WordMatrix) (k : Nat) : Byte :=
  ((o[k / 4]?.getD 0) >>> (8 * (k % 4))).setWidth 8

/-- `load32` as R12 writes it, by the values of the bytes. -/
def load (order : LoadOrder) (b0 b1 b2 b3 : Byte) : Word :=
  match order with
  | .little => BitVec.ofNat 32 (b0.toNat + 2 ^ 8 * b1.toNat + 2 ^ 16 * b2.toNat + 2 ^ 24 * b3.toNat)
  | .big => BitVec.ofNat 32 (b3.toNat + 2 ^ 8 * b2.toNat + 2 ^ 16 * b1.toNat + 2 ^ 24 * b0.toNat)

/-- Word `j` of a sequence of bytes. -/
def loadAt (order : LoadOrder) (b : Nat → Byte) (j : Nat) : Word :=
  load order (b (4 * j)) (b (4 * j + 1)) (b (4 * j + 2)) (b (4 * j + 3))

/-- The fault entry of R165, as an outcome: `CAUSE` (bits 11:8 of `STATUS`) is the code, `FINFO` the value recorded, and
nothing else is written, no other bit of `STATUS` either. -/
def FaultsWith (r : Result) (s : State) (code : BitVec 4) (info : Word) : Prop :=
  ∃ t, r = .next t ∧ t = { s with status := t.status, finfo := info } ∧
    ∀ k < 32, t.status.getLsbD k = if 8 ≤ k ∧ k < 12 then code.getLsbD (k - 8) else s.status.getLsbD k

/-- The fault a command raises, by the table of R161 and the order of R167; none if it raises none. -/
def faultOf (i : Instr) (s : State) : Option (BitVec 4 × Word) :=
  let cwHigh : Word := (encode i).extractLsb' 32 32
  match i with
  | .init klen => if klen = 32 then none else some (1, klen)
  | .wrcr cr _ => if cr.val > 5 then some (2, cwHigh) else none
  | .rdcr cr => if cr.val > 10 then some (2, cwHigh) else none
  | .rdm _ sel => if sel.val > 2 then some (2, cwHigh) else none
  | .qr a b c d => if [a, b, c, d].Nodup then none else some (2, cwHigh)
  | .ctrw => if s.inited then none else some (3, cwHigh)
  | .ldw => if s.inited then none else some (3, cwHigh)
  | .ffwd => if s.inited then none else some (3, cwHigh)
  | .block => if s.inited then none else some (3, cwHigh)
  | .combine => if s.inited then none else some (3, cwHigh)
  | .xork m =>
    if s.inited = false then some (3, cwHigh)
    else if m.toNat > 64 ∨ s.pos.toNat + m.toNat > s.len.toNat then some (4, m)
    else none
  | .setw _ _ => none
  | .colrnd => none
  | .rowrnd => none
  | .dblrnd => none
  | .perm => none
  | .ctrinc => none

/-- A command word R75 calls illegal: an `op` outside the list, or `rsv` not zero, or a field the format does not use not
zero. -/
def IllegalByFields (cw : CommandWord) : Prop :=
  let op := cw.extractLsb' 56 8
  let a := cw.extractLsb' 44 4
  let b := cw.extractLsb' 40 4
  let c := cw.extractLsb' 36 4
  let d := cw.extractLsb' 32 4
  let imm := cw.extractLsb' 0 32
  op ∉ [0x01#8, 0x02#8, 0x03#8, 0x04#8, 0x05#8, 0x10#8, 0x11#8, 0x12#8, 0x13#8, 0x14#8, 0x18#8, 0x19#8, 0x1A#8, 0x1B#8,
      0x20#8, 0x21#8, 0x22#8] ∨
    cw.extractLsb' 48 8 ≠ 0 ∨
    (op ∈ [0x01#8, 0x21#8] ∧ ¬(a = 0 ∧ b = 0 ∧ c = 0 ∧ d = 0)) ∨
    (op ∈ [0x02#8, 0x04#8] ∧ ¬(b = 0 ∧ c = 0 ∧ d = 0)) ∨
    (op = 0x03#8 ∧ ¬(b = 0 ∧ c = 0 ∧ d = 0 ∧ imm = 0)) ∨
    (op = 0x05#8 ∧ ¬(c = 0 ∧ d = 0 ∧ imm = 0)) ∨
    (op = 0x10#8 ∧ imm ≠ 0) ∨
    (op ∈ [0x11#8, 0x12#8, 0x13#8, 0x14#8, 0x18#8, 0x19#8, 0x1A#8, 0x1B#8, 0x20#8, 0x22#8] ∧
      ¬(a = 0 ∧ b = 0 ∧ c = 0 ∧ d = 0 ∧ imm = 0))

/-- The commands that execute in the fault state (R168). -/
def readsInFaultState : Instr → Bool
  | .rdcr cr => decide (cr.val ≤ 10)
  | .rdm _ sel => decide (sel.val ≤ 2)
  | _ => false

/-- The state after `BLOCK` run with the counter `c` (R130). -/
def blockAt (s : State) (c : DWord) : State :=
  match exec .block { s with ctr := c } with
  | .next t => t
  | _ => s

/-- The unit's own state as reset leaves it (R40), with the parameters, the host's memories and the host's list of `s`. -/
def ResetFrom (s : State) (out : Memory) (rest : List HostEvent) : State :=
  { State.reset with
    cfg := s.cfg, key := s.key, inp := s.inp, out := out, outRoom := s.outRoom, pending := rest }

/-- The four lanes of the column round and of the row round (R123, R124). -/
def columnLanes : List Instr :=
  [.qr 0 4 8 12, .qr 5 9 13 1, .qr 10 14 2 6, .qr 15 3 7 11]

def rowLanes : List Instr :=
  [.qr 0 1 2 3, .qr 5 6 7 4, .qr 10 11 8 9, .qr 15 12 13 14]

/-- The command list that `COMBINE` stands for on a buffer of `n` bytes (R143). -/
def mainLoop (n : Nat) : List Instr :=
  (List.replicate (n / 64) [Instr.block, .xork 64, .ctrinc]).flatten ++
    (if n % 64 = 0 then [] else [Instr.block, .xork (BitVec.ofNat 32 (n % 64))])

end Sys2Proof.Claims

open Sys2Proof Sys2Proof.Machine Sys2Proof.Claims

/-! The encoding. -/

/-- One word of each format, from the table of spec/95_test_vectors.md V60, and three illegal ones (R71 to R75). -/
def Obligations.SpecWordsDecode : Prop :=
  decode 0x0100000000000020 = .command (.init 32) ∧
  decode 0x02005000FFFFFFFF = .command (.wrcr 5 0xFFFFFFFF) ∧
  decode 0x0300A00000000000 = .command (.rdcr 10) ∧
  decode 0x0400F0006B206574 = .command (.setw 15 0x6B206574) ∧
  decode 0x0500F20000000000 = .command (.rdm 15 2) ∧
  decode 0x100059D100000000 = .command (.qr 5 9 13 1) ∧
  decode 0x1B00000000000000 = .command .block ∧
  decode 0x2100000000000040 = .command (.xork 64) ∧
  decode 0x1500000000000000 = .illegal (.unknownOpcode 0x15) ∧
  decode 0x1101000000000000 = .illegal .reservedOrUnusedNotZero ∧
  decode 0x1100000000000001 = .illegal .reservedOrUnusedNotZero

/-- Decoding the encoding of any command gives it back, with every operand at every value (R70 to R74). -/
def Obligations.DecodeOfEncode : Prop :=
  ∀ i : Instr, decode (encode i) = .command i

/-- A command word that decodes to a command is the encoding of that command, so each command has one word (R74). -/
def Obligations.EncodeOfDecode : Prop :=
  ∀ (cw : CommandWord) (i : Instr), decode cw = .command i → encode i = cw

/-- The decoder is total and refuses exactly the words R75 lists (R74, R75). -/
def Obligations.IllegalWordsAreThoseListed : Prop :=
  ∀ cw : CommandWord, (∃ why, decode cw = .illegal why) ↔ IllegalByFields cw

/-! The step. -/

/-- A command word that decodes to a command: the step is that command, on the state with the word taken off the host's list
(R90). -/
def Obligations.StepRunsDecodedCommand : Prop :=
  ∀ (s : State) (cw : CommandWord) (rest : List HostEvent) (i : Instr),
    s.pending = .command cw :: rest → decode cw = .command i → step s = exec i { s with pending := rest }

/-- An illegal command word raises IllegalCommand with `FINFO = CW[63:32]` and changes nothing else; the all-zero and the
all-ones word are illegal (R75). -/
def Obligations.IllegalWordFaults : Prop :=
  (∀ (s : State) (cw : CommandWord) (rest : List HostEvent),
    s.pending = .command cw :: rest → IllegalByFields cw → s.cause = 0 →
      FaultsWith (step s) { s with pending := rest } 2 (cw.extractLsb' 32 32)) ∧
  IllegalByFields 0 ∧ IllegalByFields (BitVec.allOnes 64)

/-- When the host has issued everything, the run has ended and there is no step (R194). That the end of a run shows as a
refusal is the model's choice (log 5). -/
def Obligations.StepEndsWithTheList : Prop :=
  ∀ s : State, s.pending = [] → step s = .refused .runEnded

/-- Issuing a list of commands, step by step, is executing them one after another (R194, R90). -/
def Obligations.RunOfCommandsIsInTurn : Prop :=
  ∀ (is : List Instr) (s : State),
    Host.Core.run Sys2Proof.core is.length { s with pending := is.map fun i => .command (encode i) } =
      match inTurn is s with
      | .next t => .next { t with pending := [] }
      | .fault f => .fault f
      | .refused r => .refused r

/-! Faults. -/

/-- Which command faults when, with which code and which `FINFO` (R161, R167): if the table names a fault, that fault is
entered; if it names none, `CAUSE` stays 0 and `FINFO` as it was. `CW[63:32]` of a decoded command is that of its encoding
(log 7). -/
def Obligations.FaultTable : Prop :=
  ∀ (i : Instr) (s : State), s.cause = 0 →
    (∀ code info, faultOf i s = some (code, info) → FaultsWith (exec i s) s code info) ∧
    (faultOf i s = none → ∀ t, exec i s = .next t → t.cause = 0 ∧ t.finfo = s.finfo)

/-- Fault entry writes `STATUS.CAUSE` and `FINFO` and nothing else, is only reached when `CAUSE` was 0, and the code is one of
the four (R165). -/
def Obligations.FaultEntryIsPrecise : Prop :=
  ∀ (i : Instr) (s t : State), exec i s = .next t → t.cause ≠ s.cause →
    s.cause = 0 ∧ ∃ code info, code ∈ [1#4, 2#4, 3#4, 4#4] ∧ FaultsWith (exec i s) s code info

/-- In the fault state a well-formed `RDCR` or `RDM` executes and writes `RDATA` only; every other command word, legal or not,
has no effect at all; and no fault state is final, whatever the host has still to issue (R168). -/
def Obligations.FaultStateIgnoresCommands : Prop :=
  (∀ s : State, s.cause ≠ 0 → ¬ s.Final) ∧
  ∀ (s : State) (cw : CommandWord) (rest : List HostEvent),
    s.pending = .command cw :: rest → s.cause ≠ 0 →
      (∀ cr : Fin 16, cw = encode (.rdcr cr) → cr.val ≤ 10 →
        ∃ v, readCR s cr = some v ∧ step s = .next { s with rdata := v, pending := rest }) ∧
      (∀ (a : Cell) (sel : Fin 16), cw = encode (.rdm a sel) → sel.val ≤ 2 →
        step s = .next { s with
          rdata := (if sel.val = 0 then s.w[a] else if sel.val = 1 then s.x[a] else s.o[a]), pending := rest }) ∧
      ((∀ i, decode cw = .command i → readsInFaultState i = false) → step s = .next { s with pending := rest })

/-- No action of the host but a reset, alone or in the middle of a command, takes the unit out of the fault state or changes
what the first fault recorded (R169). What a reset leaves is stated in `ResetValues`. -/
def Obligations.OnlyResetLeavesFaultState : Prop :=
  ∀ s t : State, s.cause ≠ 0 → step s = .next t →
    (∀ e rest, s.pending = e :: rest → e.resets = false) →
      t.cause = s.cause ∧ t.finfo = s.finfo

/-- A run from a fault state on which the host never resets does not go right (R168, R194). -/
def Obligations.FaultedRunNeverEndsRight : Prop :=
  ∀ (k : Nat) (s t : State), s.cause ≠ 0 → s.willReset = false → RunsTo k s t → ¬ t.Final

/-! Reset and the host's other actions. -/

/-- The values of R40, in the state after reset and after a reset of any state; a reset touches no parameter and none of the
host's memories (R40, R181). -/
def Obligations.ResetValues : Prop :=
  (∀ i : Cell, State.reset.w[i] = 0 ∧ State.reset.x[i] = 0 ∧ State.reset.o[i] = 0) ∧
  State.reset.ctr = 0 ∧ State.reset.len = 0 ∧ State.reset.pos = 0 ∧ State.reset.status = 0 ∧ State.reset.finfo = 0 ∧
  State.reset.rdata = 0 ∧ State.reset.cfg.nonceLo = Config.nonceLo ∧ State.reset.cfg.nonceHi = Config.nonceHi ∧
  ∀ (s : State) (rest : List HostEvent), s.pending = .reset :: rest → step s = .next (ResetFrom s s.out rest)

/-- A command abandoned by a reset after `n` bytes of OUT: the unit is as reset leaves it; of the OUT bytes an `XORK` or a
`COMBINE` writes, those among the first `n` are written and the rest are not; no other command writes OUT (R180). That the
host's action carries `n` is the model's choice (log 9); `n` is any number. -/
def Obligations.ResetAbandonsCommand : Prop :=
  ∀ (s : State) (i : Instr) (n : Nat) (rest : List HostEvent),
    s.pending = .commandCutByReset (encode i) n :: rest →
      (∀ (m : Word) (b : Nat → Byte), i = .xork m → s.cause = 0 → s.inited = true → m.toNat ≤ 64 →
        s.pos.toNat + m.toNat ≤ s.len.toNat →
        (∀ k < min n m.toNat, Memory.read s.inp (s.pos.toNat + k) = some (b k) ∧ s.pos.toNat + k < s.outRoom) →
        ∃ out, step s = .next (ResetFrom s out rest) ∧
          (∀ k < min n m.toNat, Memory.read out (s.pos.toNat + k) = some (b k ^^^ keystream s.o k)) ∧
          (∀ a, a < s.pos.toNat ∨ s.pos.toNat + min n m.toNat ≤ a → Memory.read out a = Memory.read s.out a)) ∧
      (i = .combine → s.cause = 0 → s.inited = true → ∀ t, exec .combine s = .next t →
        ∃ out, step s = .next (ResetFrom s out rest) ∧
          (∀ a < min n s.len.toNat, Memory.read out a = Memory.read t.out a) ∧
          (∀ a, min n s.len.toNat ≤ a → Memory.read out a = Memory.read s.out a)) ∧
      ((∀ m, i ≠ .xork m) → i ≠ .combine → step s = .next (ResetFrom s s.out rest))

/-- The host's writes between commands: the byte reads back, no other byte of any space and nothing of the unit changes
(R194). The host's actions are the model's own data (log 5). -/
def Obligations.HostWritesItsMemoryOnly : Prop :=
  ∀ (s : State) (space : Space) (addr : DWord) (v : Byte) (rest : List HostEvent),
    s.pending = .hostWrite space addr v :: rest →
      ∃ t, step s = .next t ∧ t = { s with key := t.key, inp := t.inp, out := t.out, pending := rest } ∧
        Memory.read (t.memory space) addr.toNat = some v ∧
        ∀ (space' : Space) (a : Nat), space' ≠ space ∨ a ≠ addr.toNat →
          Memory.read (t.memory space') a = Memory.read (s.memory space') a

/-- A host that writes KEY or IN while a command runs, which it must not: each byte the command reads there is a free draw `d`,
any byte, whatever KEY and IN hold (R61). `XORK`, `COMBINE` and `INIT 32` do with the drawn bytes all they do with bytes the
host has provided; a command that reads nothing does what it does undisturbed. Model's choice (log 8): the draws come with the
host's action, and KEY and IN are afterwards as before the command, until the host's next actions say otherwise. The codes of
`SIGMA` are the spec's general knowledge (log 11). -/
def Obligations.DisturbedReadsAreFreeDraws : Prop :=
  ∀ (s : State) (key inp : Memory) (rest : List HostEvent) (d : Nat → Byte),
    (∀ m : Word, s.pending = .commandWhileHostWrites (encode (.xork m)) key inp :: rest → s.cause = 0 → s.inited = true →
      m.toNat ≤ 64 → s.pos.toNat + m.toNat ≤ s.len.toNat →
      (∀ k < m.toNat, Memory.read inp (s.pos.toNat + k) = some (d k) ∧ s.pos.toNat + k < s.outRoom) →
      ∃ out, step s = .next { s with out := out, pos := s.pos + m.setWidth 64, pending := rest } ∧
        (∀ k < m.toNat, Memory.read out (s.pos.toNat + k) = some (d k ^^^ keystream s.o k)) ∧
        (∀ a, a < s.pos.toNat ∨ s.pos.toNat + m.toNat ≤ a → Memory.read out a = Memory.read s.out a)) ∧
    (s.pending = .commandWhileHostWrites (encode .combine) key inp :: rest → s.cause = 0 → s.inited = true →
      (∀ j < s.len.toNat, Memory.read inp j = some (d j)) → s.len.toNat ≤ s.outRoom →
      ∃ t, step s = .next t ∧
        t = { s with x := t.x, w := t.w, o := t.o, ctr := t.ctr, pos := s.len, out := t.out, pending := rest } ∧
        (∀ j < s.len.toNat, Memory.read t.out j =
          some (d j ^^^ keystream (blockAt s (s.ctr + BitVec.ofNat 64 (j / 64))).o (j % 64))) ∧
        (∀ a, s.len.toNat ≤ a → Memory.read t.out a = Memory.read s.out a) ∧
        t.ctr.toNat = (s.ctr.toNat + s.len.toNat / 64) % 2 ^ 64 ∧
        (s.len = 0 → t.x = s.x ∧ t.w = s.w ∧ t.o = s.o) ∧
        (s.len ≠ 0 →
          let last := blockAt s (s.ctr + BitVec.ofNat 64 ((s.len.toNat - 1) / 64))
          t.x = last.x ∧ t.w = last.w ∧ t.o = last.o)) ∧
    (s.pending = .commandWhileHostWrites (encode (.init 32)) key inp :: rest → s.cause = 0 →
      (∀ a < 32, Memory.read key a = some (d a)) →
      ∃ t, step s = .next t ∧ t = { s with x := t.x, ctr := 0, status := s.status ||| 1, pending := rest } ∧
        let kw := loadAt s.cfg.loadOrder d
        let cw : Word → Word → Word := fun little big => if s.cfg.loadOrder = .little then little else big
        t.x = #v[cw 0x61707865 0x65787061, kw 0, kw 1, kw 2,
                 kw 3, cw 0x3320646e 0x6e642033, s.cfg.nonceLo, s.cfg.nonceHi,
                 0, 0, cw 0x79622d32 0x322d6279, kw 4,
                 kw 5, kw 6, kw 7, cw 0x6b206574 0x7465206b]) ∧
    (∀ i : Instr, s.pending = .commandWhileHostWrites (encode i) key inp :: rest →
      s.cause ≠ 0 ∨ i.op ∉ [Op.init, .xork, .combine] ∨ faultOf i s ≠ none → step s = exec i { s with pending := rest })

/-! StateInitializer and access to registers and cells. -/

/-- `INIT 32` reads KEY 0 to 31 and builds the initial matrix by the layout of R24 for either word load order, sets `CTR` to 0
and `INITED` to 1 and writes nothing else; any other length is KeyLengthError before anything is read or written (R91, R24).
The codes of the constant `SIGMA`, and so the words of the four constant cells, are the spec's general knowledge (log 11). -/
def Obligations.InitBuildsInitialMatrix : Prop :=
  (∀ klen : Word, encode (.init klen) = 0x0100000000000000 ||| klen.setWidth 64) ∧
  (∀ (s : State) (b : Nat → Byte), s.cause = 0 → (∀ a < 32, Memory.read s.key a = some (b a)) →
    ∃ t, exec (.init 32) s = .next t ∧ t = { s with x := t.x, ctr := 0, status := s.status ||| 1 } ∧ t.inited = true ∧
      let kw := loadAt s.cfg.loadOrder b
      let cw : Word → Word → Word := fun little big => if s.cfg.loadOrder = .little then little else big
      t.x = #v[cw 0x61707865 0x65787061, kw 0, kw 1, kw 2,
               kw 3, cw 0x3320646e 0x6e642033, s.cfg.nonceLo, s.cfg.nonceHi,
               0, 0, cw 0x79622d32 0x322d6279, kw 4,
               kw 5, kw 6, kw 7, cw 0x6b206574 0x7465206b]) ∧
  (∀ (s : State) (klen : Word), s.cause = 0 → klen ≠ 32 → FaultsWith (exec (.init klen) s) s 1 klen)

/-- `WRCR` writes one half of `CTR`, `LEN` or `POS` and leaves the other half and everything else as it is; a read-only or
reserved number is IllegalCommand (R92). -/
def Obligations.WrcrWritesOneRegister : Prop :=
  (∀ (cr : Fin 16) (imm : Word),
    encode (.wrcr cr imm) = 0x0200000000000000 ||| (BitVec.ofNat 64 cr.val <<< 44) ||| imm.setWidth 64) ∧
  ∀ (s : State) (imm : Word), s.cause = 0 →
    exec (.wrcr 0 imm) s = .next { s with ctr := s.ctr.extractLsb' 32 32 ++ imm } ∧
    exec (.wrcr 1 imm) s = .next { s with ctr := imm ++ s.ctr.extractLsb' 0 32 } ∧
    exec (.wrcr 2 imm) s = .next { s with len := s.len.extractLsb' 32 32 ++ imm } ∧
    exec (.wrcr 3 imm) s = .next { s with len := imm ++ s.len.extractLsb' 0 32 } ∧
    exec (.wrcr 4 imm) s = .next { s with pos := s.pos.extractLsb' 32 32 ++ imm } ∧
    exec (.wrcr 5 imm) s = .next { s with pos := imm ++ s.pos.extractLsb' 0 32 } ∧
    ∀ cr : Fin 16, cr.val > 5 →
      FaultsWith (exec (.wrcr cr imm) s) s 2 ((encode (.wrcr cr imm)).extractLsb' 32 32)

/-- `RDCR` copies each defined register to `RDATA`, in the fault state too, and writes nothing else; a reserved number is
IllegalCommand outside the fault state and nothing in it (R93). -/
def Obligations.RdcrCopiesRegister : Prop :=
  (∀ cr : Fin 16, encode (.rdcr cr) = 0x0300000000000000 ||| (BitVec.ofNat 64 cr.val <<< 44)) ∧
  ∀ s : State,
    exec (.rdcr 0) s = .next { s with rdata := s.ctr.extractLsb' 0 32 } ∧
    exec (.rdcr 1) s = .next { s with rdata := s.ctr.extractLsb' 32 32 } ∧
    exec (.rdcr 2) s = .next { s with rdata := s.len.extractLsb' 0 32 } ∧
    exec (.rdcr 3) s = .next { s with rdata := s.len.extractLsb' 32 32 } ∧
    exec (.rdcr 4) s = .next { s with rdata := s.pos.extractLsb' 0 32 } ∧
    exec (.rdcr 5) s = .next { s with rdata := s.pos.extractLsb' 32 32 } ∧
    exec (.rdcr 6) s = .next { s with rdata := s.status } ∧
    exec (.rdcr 7) s = .next { s with rdata := s.finfo } ∧
    exec (.rdcr 8) s = .next { s with rdata := s.cfg.nonceLo } ∧
    exec (.rdcr 9) s = .next { s with rdata := s.cfg.nonceHi } ∧
    exec (.rdcr 10) s = .next s ∧
    ∀ cr : Fin 16, cr.val > 10 →
      (s.cause = 0 → FaultsWith (exec (.rdcr cr) s) s 2 ((encode (.rdcr cr)).extractLsb' 32 32)) ∧
      (s.cause ≠ 0 → exec (.rdcr cr) s = .next s)

/-- `SETW` writes one cell of `W`; the fifteen others and everything else are unchanged (R94). -/
def Obligations.SetwWritesOneCell : Prop :=
  ∀ (a : Cell) (imm : Word),
    encode (.setw a imm) = 0x0400000000000000 ||| (BitVec.ofNat 64 a.val <<< 44) ||| imm.setWidth 64 ∧
    ∀ s : State, s.cause = 0 →
      ∃ t, exec (.setw a imm) s = .next t ∧ t = { s with w := t.w } ∧ t.w[a] = imm ∧ ∀ j : Cell, j ≠ a → t.w[j] = s.w[j]

/-- `RDM` copies one cell of `W`, `X` or `O` to `RDATA`, whatever `INITED` and `CAUSE` are, and writes nothing else; a
selector above 2 is IllegalCommand outside the fault state and nothing in it (R95). -/
def Obligations.RdmCopiesCell : Prop :=
  ∀ (a : Cell) (s : State),
    (∀ sel : Fin 16, encode (.rdm a sel) =
      0x0500000000000000 ||| (BitVec.ofNat 64 a.val <<< 44) ||| (BitVec.ofNat 64 sel.val <<< 40)) ∧
    exec (.rdm a 0) s = .next { s with rdata := s.w[a] } ∧
    exec (.rdm a 1) s = .next { s with rdata := s.x[a] } ∧
    exec (.rdm a 2) s = .next { s with rdata := s.o[a] } ∧
    ∀ sel : Fin 16, sel.val > 2 →
      (s.cause = 0 → FaultsWith (exec (.rdm a sel) s) s 2 ((encode (.rdm a sel)).extractLsb' 32 32)) ∧
      (s.cause ≠ 0 → exec (.rdm a sel) s = .next s)

/-! The quarter round. -/

/-- `QR` on four distinct cells gives them the values of R112 and leaves the twelve others and everything else as they are;
two operands naming one cell are IllegalCommand (R111). -/
def Obligations.QrUpdatesFourCells : Prop :=
  ∀ a b c d : Cell,
    encode (.qr a b c d) = 0x1000000000000000 ||| (BitVec.ofNat 64 a.val <<< 44) ||| (BitVec.ofNat 64 b.val <<< 40) |||
      (BitVec.ofNat 64 c.val <<< 36) ||| (BitVec.ofNat 64 d.val <<< 32) ∧
    ∀ s : State, s.cause = 0 →
      ([a, b, c, d].Nodup →
        ∃ t, exec (.qr a b c d) s = .next t ∧ t = { s with w := t.w } ∧
          t.w[b] = s.w[b] ^^^ (s.w[a] + s.w[d]).rotateLeft 7 ∧
          t.w[c] = s.w[c] ^^^ (t.w[b] + s.w[a]).rotateLeft 9 ∧
          t.w[d] = s.w[d] ^^^ (t.w[c] + t.w[b]).rotateLeft 13 ∧
          t.w[a] = s.w[a] ^^^ (t.w[d] + t.w[c]).rotateLeft 18 ∧
          ∀ j : Cell, j ∉ [a, b, c, d] → t.w[j] = s.w[j]) ∧
      (¬ [a, b, c, d].Nodup → FaultsWith (exec (.qr a b c d) s) s 2 ((encode (.qr a b c d)).extractLsb' 32 32))

/-- The quarter round is a bijection on the working matrix: every matrix is its result on exactly one (R112). -/
def Obligations.QrIsBijective : Prop :=
  ∀ (a b c d : Cell) (s : State), s.cause = 0 → [a, b, c, d].Nodup → ∀ m : WordMatrix,
    ∃ w : WordMatrix, exec (.qr a b c d) { s with w := w } = .next { s with w := m } ∧
      ∀ w' : WordMatrix, exec (.qr a b c d) { s with w := w' } = .next { s with w := m } → w' = w

/-! The permutation engine. -/

/-- `COLRND` is the four quarter rounds of its groups, and writes `W` only (R123). -/
def Obligations.ColrndIsFourQuarterRounds : Prop :=
  encode .colrnd = 0x1100000000000000 ∧
  ∀ s : State, s.cause = 0 →
    ∃ t, exec .colrnd s = .next t ∧ t = { s with w := t.w } ∧
      inTurn [.qr 0 4 8 12, .qr 5 9 13 1, .qr 10 14 2 6, .qr 15 3 7 11] s = .next t

/-- `ROWRND` is the four quarter rounds of its groups, and writes `W` only (R124). -/
def Obligations.RowrndIsFourQuarterRounds : Prop :=
  encode .rowrnd = 0x1200000000000000 ∧
  ∀ s : State, s.cause = 0 →
    ∃ t, exec .rowrnd s = .next t ∧ t = { s with w := t.w } ∧
      inTurn [.qr 0 1 2 3, .qr 5 6 7 4, .qr 10 11 8 9, .qr 15 12 13 14] s = .next t

/-- `DBLRND` is `COLRND`, then `ROWRND` on its result, and writes `W` only (R125). -/
def Obligations.DblrndIsColumnThenRow : Prop :=
  encode .dblrnd = 0x1300000000000000 ∧
  ∀ s : State, s.cause = 0 →
    ∃ t, exec .dblrnd s = .next t ∧ t = { s with w := t.w } ∧ inTurn [.colrnd, .rowrnd] s = .next t

/-- `PERM` is ten `DBLRND`, and writes `W` only; an all-zero `W` stays all zero (R126). -/
def Obligations.PermIsTenDoubleRounds : Prop :=
  encode .perm = 0x1400000000000000 ∧
  ∀ s : State, s.cause = 0 →
    ∃ t, exec .perm s = .next t ∧ t = { s with w := t.w } ∧ inTurn (List.replicate 10 .dblrnd) s = .next t ∧
      ((∀ i : Cell, s.w[i] = 0) → ∀ i : Cell, t.w[i] = 0)

/-- The lanes of a pass may be done in any order, and at once: each lane leaves in its own cells what it would leave there
alone (R131). -/
def Obligations.LanesInAnyOrder : Prop :=
  ∀ s : State, s.cause = 0 →
    (∀ l : List Instr, l.Perm columnLanes → inTurn l s = exec .colrnd s) ∧
    (∀ l : List Instr, l.Perm rowLanes → inTurn l s = exec .rowrnd s) ∧
    ∀ a b c d : Cell, ∀ j ∈ [a, b, c, d], ∀ t u : State, exec (.qr a b c d) s = .next t →
      (Instr.qr a b c d ∈ columnLanes → exec .colrnd s = .next u → u.w[j] = t.w[j]) ∧
      (Instr.qr a b c d ∈ rowLanes → exec .rowrnd s = .next u → u.w[j] = t.w[j])

/-- `CTRW` writes the counter's two words into cells 8 and 9 of `X` in the encoding of R121, and nothing else; without `INIT`
it is NotInitialized (R120, R121). That `X[9]` is 0 under the encoding `swapped` is the spec's general knowledge (log 12). -/
def Obligations.CtrwWritesCounterCells : Prop :=
  encode .ctrw = 0x1800000000000000 ∧
  ∀ s : State, s.cause = 0 →
    (s.inited = true →
      ∃ t, exec .ctrw s = .next t ∧ t = { s with x := t.x } ∧ (∀ j : Cell, j ≠ 8 → j ≠ 9 → t.x[j] = s.x[j]) ∧
        (s.cfg.counterEncoding = .linear →
          t.x[(8 : Cell)] = s.ctr.extractLsb' 0 32 ∧ t.x[(9 : Cell)] = s.ctr.extractLsb' 32 32) ∧
        (s.cfg.counterEncoding = .swapped →
          (∀ k < 4, (t.x[(8 : Cell)]).extractLsb' (8 * k) 8 = s.ctr.extractLsb' (8 * (3 - k)) 8) ∧ t.x[(9 : Cell)] = 0)) ∧
    (s.inited = false → FaultsWith (exec .ctrw s) s 3 0x18000000)

/-- `LDW` copies `X` to `W` and writes nothing else; without `INIT` it is NotInitialized (R122). -/
def Obligations.LdwCopiesInitialMatrix : Prop :=
  encode .ldw = 0x1900000000000000 ∧
  ∀ s : State, s.cause = 0 →
    (s.inited = true → exec .ldw s = .next { s with w := s.x }) ∧
    (s.inited = false → FaultsWith (exec .ldw s) s 3 0x19000000)

/-- `FFWD` leaves in every cell of `O` the sum modulo 2^32 of the cells of `W` and `X`, and writes nothing else; without
`INIT` it is NotInitialized (R127). -/
def Obligations.FfwdAddsCellwise : Prop :=
  encode .ffwd = 0x1A00000000000000 ∧
  ∀ s : State, s.cause = 0 →
    (s.inited = true →
      ∃ t, exec .ffwd s = .next t ∧ t = { s with o := t.o } ∧
        ∀ i : Cell, (t.o[i]).toNat = ((s.w[i]).toNat + (s.x[i]).toNat) % 2 ^ 32) ∧
    (s.inited = false → FaultsWith (exec .ffwd s) s 3 0x1A000000)

/-- `BLOCK` is `CTRW`, `LDW`, `PERM`, `FFWD`; it writes cells 8 and 9 of `X`, `W` and `O` only; a second `BLOCK` changes
nothing; its result does not depend on the old `W`, `O`, `X[8]` or `X[9]`; without `INIT` it is NotInitialized (R128). -/
def Obligations.BlockIsItsFourSteps : Prop :=
  encode .block = 0x1B00000000000000 ∧
  ∀ s : State, s.cause = 0 →
    (s.inited = true →
      ∃ t, exec .block s = .next t ∧ t = { s with x := t.x, w := t.w, o := t.o } ∧
        (∀ j : Cell, j ≠ 8 → j ≠ 9 → t.x[j] = s.x[j]) ∧
        inTurn [.ctrw, .ldw, .perm, .ffwd] s = .next t ∧ exec .block t = .next t ∧
        ∀ w o x : WordMatrix, (∀ j : Cell, j ≠ 8 → j ≠ 9 → x[j] = s.x[j]) →
          exec .block { s with w := w, o := o, x := x } = .next t) ∧
    (s.inited = false → FaultsWith (exec .block s) s 3 0x1B000000)

/-- The keystream bytes the combiner uses are the bytes of `O`, least significant first, cell by cell (R129). -/
def Obligations.KeystreamIsLittleEndianView : Prop :=
  ∀ (o : WordMatrix) (i : Cell) (n : Nat), n < 4 →
    ks o (4 * i.val + n) = (o[i]).extractLsb' (8 * n) 8 ∧
    ks o (4 * i.val + n) = ((o[i]) >>> (8 * n)).setWidth 8

/-- The block depends on the counter, its encoding and the fourteen other cells of `X` only, not on the old `W`, `O`, `X[8]`
or `X[9]` (R130). -/
def Obligations.KeystreamPurity : Prop :=
  ∀ s s' : State, s.cause = 0 → s.inited = true → s'.cause = 0 → s'.inited = true →
    s.ctr = s'.ctr → s.cfg.counterEncoding = s'.cfg.counterEncoding →
    (∀ j : Cell, j ≠ 8 → j ≠ 9 → s.x[j] = s'.x[j]) →
      ∃ t t', exec .block s = .next t ∧ exec .block s' = .next t' ∧ t.o = t'.o ∧ t.w = t'.w ∧ t.x = t'.x

/-! The cipher engine. -/

/-- `CTRINC` adds one to `CTR` modulo 2^64 and writes nothing else, whether or not there was an `INIT` (R142). -/
def Obligations.CtrincAddsOne : Prop :=
  encode .ctrinc = 0x2000000000000000 ∧
  ∀ s : State, s.cause = 0 →
    ∃ t, exec .ctrinc s = .next t ∧ t = { s with ctr := t.ctr } ∧ t.ctr.toNat = (s.ctr.toNat + 1) % 2 ^ 64

/-- `XORK m` combines IN bytes `POS` to `POS + m - 1` with the first `m` keystream bytes into OUT, advances `POS` by `m` and
writes nothing else; NotInitialized without `INIT`; LengthError for more than a block or past the buffer (R141). The spec's
host obligation, `m` readable bytes and `m` writable ones (R58), is the premise. -/
def Obligations.XorkCombinesBytes : Prop :=
  ∀ m : Word,
    encode (.xork m) = 0x2100000000000000 ||| m.setWidth 64 ∧
    ∀ s : State, s.cause = 0 →
      (∀ b : Nat → Byte, s.inited = true → m.toNat ≤ 64 → s.pos.toNat + m.toNat ≤ s.len.toNat →
        (∀ k < m.toNat, Memory.read s.inp (s.pos.toNat + k) = some (b k) ∧ s.pos.toNat + k < s.outRoom) →
        ∃ t, exec (.xork m) s = .next t ∧ t = { s with out := t.out, pos := t.pos } ∧
          t.pos.toNat = s.pos.toNat + m.toNat ∧
          (∀ k < m.toNat, Memory.read t.out (s.pos.toNat + k) = some (b k ^^^ keystream s.o k)) ∧
          (∀ a, a < s.pos.toNat ∨ s.pos.toNat + m.toNat ≤ a → Memory.read t.out a = Memory.read s.out a)) ∧
      (s.inited = false → FaultsWith (exec (.xork m) s) s 3 0x21000000) ∧
      (s.inited = true → m.toNat > 64 ∨ s.pos.toNat + m.toNat > s.len.toNat → FaultsWith (exec (.xork m) s) s 4 m)

/-- Where the host's memory does not admit an access, `XORK` is stuck at the first such access, in the order of R60, and has
no next state (R58). Which bytes are provided, and how much room, is the model's own record of the host's memory (log 2, log
4). -/
def Obligations.XorkIsStuckAtRefusedAccess : Prop :=
  ∀ (m : Word) (s : State) (k : Nat), s.cause = 0 → s.inited = true → m.toNat ≤ 64 →
    s.pos.toNat + m.toNat ≤ s.len.toNat → k < m.toNat →
    (∀ j < k, (Memory.read s.inp (s.pos.toNat + j)).isSome = true ∧ s.pos.toNat + j < s.outRoom) →
      (Memory.read s.inp (s.pos.toNat + k) = none →
        exec (.xork m) s = .fault (.accessNotAdmitted .inp (s.pos.toNat + k))) ∧
      ((Memory.read s.inp (s.pos.toNat + k)).isSome = true → s.outRoom ≤ s.pos.toNat + k →
        exec (.xork m) s = .fault (.accessNotAdmitted .out (s.pos.toNat + k)))

/-- A command is stuck only where the host's memory does not admit an access the command makes: `INIT 32` on a KEY byte below 32
the host has not provided; `XORK m` at one of the addresses `POS` to `POS + m - 1`, all below `LEN`, and `COMBINE` at an address
below `LEN`, on an IN byte it has not provided or an OUT address it has given no room for; no command is refused (R58, R194).
Which bytes are provided, and how much room, is the model's own record of the host's memory (log 2, log 4). -/
def Obligations.OnlyRefusedAccessesStop : Prop :=
  ∀ (i : Instr) (s : State),
    (∀ r, exec i s ≠ .refused r) ∧
    ∀ f, exec i s = .fault f → ∃ space a, f = .accessNotAdmitted space a ∧
      ((i = .init 32 ∧ space = .key ∧ a < 32 ∧ Memory.read s.key a = none) ∨
        (((∃ m : Word, i = .xork m ∧ s.pos.toNat ≤ a ∧ a < s.pos.toNat + m.toNat) ∨ i = .combine) ∧ a < s.len.toNat ∧
          ((space = .inp ∧ Memory.read s.inp a = none) ∨ (space = .out ∧ s.outRoom ≤ a))))

/-- `COMBINE` is `POS <- 0` and then `BLOCK`, `XORK 64`, `CTRINC` for each full block and `BLOCK`, `XORK r` for a rest of `r`
bytes, in every outcome; without `INIT` it is NotInitialized, whatever `LEN` is (R143). -/
def Obligations.CombineIsItsMainLoop : Prop :=
  encode .combine = 0x2200000000000000 ∧
  ∀ s : State, s.cause = 0 →
    (s.inited = true → exec .combine s = inTurn (mainLoop s.len.toNat) { s with pos := 0 }) ∧
    (s.inited = false → FaultsWith (exec .combine s) s 3 0x22000000)

/-- The closed form of `COMBINE` on a buffer the host has provided: every OUT byte below `LEN`, every other OUT byte, `CTR`,
`POS`, `LEN` and the matrices it leaves (R144). -/
def Obligations.CombineClosedForm : Prop :=
  ∀ (s : State) (b : Nat → Byte), s.cause = 0 → s.inited = true →
    (∀ j < s.len.toNat, Memory.read s.inp j = some (b j)) → s.len.toNat ≤ s.outRoom →
      ∃ t, exec .combine s = .next t ∧
        t = { s with x := t.x, w := t.w, o := t.o, ctr := t.ctr, pos := t.pos, out := t.out } ∧
        (∀ j < s.len.toNat, Memory.read t.out j =
          some (b j ^^^ keystream (blockAt s (s.ctr + BitVec.ofNat 64 (j / 64))).o (j % 64))) ∧
        (∀ a, s.len.toNat ≤ a → Memory.read t.out a = Memory.read s.out a) ∧
        t.ctr.toNat = (s.ctr.toNat + s.len.toNat / 64) % 2 ^ 64 ∧
        t.pos = s.len ∧
        (s.len = 0 → t.x = s.x ∧ t.w = s.w ∧ t.o = s.o) ∧
        (s.len ≠ 0 →
          let last := blockAt s (s.ctr + BitVec.ofNat 64 ((s.len.toNat - 1) / 64))
          t.x = last.x ∧ t.w = last.w ∧ t.o = last.o)

/-- Involution: combining what `COMBINE` wrote, from the same starting counter, gives back the input (R145 (a)). -/
def Obligations.CombineIsAnInvolution : Prop :=
  ∀ s : State, s.cause = 0 → s.inited = true →
    (∀ j < s.len.toNat, (Memory.read s.inp j).isSome = true) → s.len.toNat ≤ s.outRoom →
      ∃ t, exec .combine s = .next t ∧
        ∀ inp : Memory, (∀ j < s.len.toNat, Memory.read inp j = Memory.read t.out j) →
          ∃ u, exec .combine { t with inp := inp, ctr := s.ctr } = .next u ∧
            ∀ j < s.len.toNat, Memory.read u.out j = Memory.read s.inp j

/-- The result of a call does not depend on the `X`, `W`, `O`, `CTR`, `POS` or `RDATA` held before it: `INIT 32` and `COMBINE`
on two units with the same key, input, length and parameters leave the same OUT bytes, `X`, `CTR` and `POS` (R39, R145 (b)).
-/
def Obligations.CallsAreFresh : Prop :=
  ∀ s s' : State, s.cause = 0 → s'.cause = 0 → s.cfg = s'.cfg → s.len = s'.len →
    (∀ a < 32, (Memory.read s.key a).isSome = true ∧ Memory.read s.key a = Memory.read s'.key a) →
    (∀ j < s.len.toNat, (Memory.read s.inp j).isSome = true ∧ Memory.read s.inp j = Memory.read s'.inp j) →
    s.len.toNat ≤ s.outRoom → s'.len.toNat ≤ s'.outRoom →
      ∃ t t', inTurn [.init 32, .combine] s = .next t ∧ inTurn [.init 32, .combine] s' = .next t' ∧
        (∀ j < s.len.toNat, Memory.read t.out j = Memory.read t'.out j) ∧
        t.x = t'.x ∧ t.ctr = t'.ctr ∧ t.pos = t'.pos

/-- A host that backs IN and OUT with one storage at the same base gets the same bytes as with distinct storage (R66). -/
def Obligations.InPlaceGivesSameBytes : Prop :=
  ∀ (room : Nat) (o : WordMatrix) (pos m : Nat) (mem : Memory),
    combineBytesInPlace room o pos m mem = combineBytes mem room o pos m mem

/-- `COMBINE` with IN and OUT on one storage replaces the buffer by its combination, and leaves the rest of the storage as it was
(R66). Model's choice (log 10): such a command is an action of the host of its own, executed on a copy of IN and written back to
both spaces. -/
def Obligations.InPlaceCombineReplacesBuffer : Prop :=
  ∀ (s : State) (b : Nat → Byte) (rest : List HostEvent), s.pending = .commandInPlace (encode .combine) :: rest →
    s.cause = 0 → s.inited = true → (∀ j < s.len.toNat, Memory.read s.inp j = some (b j)) → s.len.toNat ≤ s.outRoom →
      ∃ t, step s = .next t ∧ t.out = t.inp ∧ t.pending = rest ∧ t.pos = s.len ∧
        t.ctr.toNat = (s.ctr.toNat + s.len.toNat / 64) % 2 ^ 64 ∧
        (∀ j < s.len.toNat, Memory.read t.inp j =
          some (b j ^^^ keystream (blockAt s (s.ctr + BitVec.ofNat 64 (j / 64))).o (j % 64))) ∧
        ∀ a, s.len.toNat ≤ a → Memory.read t.inp a = Memory.read s.inp a

/-- After an `XORK` or a `COMBINE` that completes without a fault, `POS <= LEN` (R30). -/
def Obligations.PosWithinLength : Prop :=
  ∀ (i : Instr) (s t : State), s.cause = 0 → ((∃ m, i = .xork m) ∨ i = .combine) → exec i s = .next t → t.cause = 0 →
    t.pos.toNat ≤ t.len.toNat

/-! The whole machine. -/

/-- Each piece of the unit's state is changed only by the commands R20 names for it, and the parameters, KEY, IN and the
host's side by none (R20, R22, R29, R34, R51, R52). -/
def Obligations.OnlyTheNamedCommandsWrite : Prop :=
  ∀ (i : Instr) (s t : State), exec i s = .next t →
    (i.op ∈ [Op.ldw, .setw, .qr, .colrnd, .rowrnd, .dblrnd, .perm, .block, .combine] ∨ t.w = s.w) ∧
    (i.op ∈ [Op.init, .ctrw, .block, .combine] ∨ t.x = s.x) ∧
    (i.op = .init ∨ ∀ j : Cell, j ≠ 8 → j ≠ 9 → t.x[j] = s.x[j]) ∧
    (i.op ∈ [Op.ffwd, .block, .combine] ∨ t.o = s.o) ∧
    (i.op ∈ [Op.init, .wrcr, .ctrinc, .combine] ∨ t.ctr = s.ctr) ∧
    (i.op = .wrcr ∨ t.len = s.len) ∧
    (i.op ∈ [Op.wrcr, .xork, .combine] ∨ t.pos = s.pos) ∧
    (i.op = .init ∨ t.cause ≠ s.cause ∨ t.status = s.status) ∧
    (t.inited = s.inited ∨ (i.op = .init ∧ t.inited = true)) ∧
    (t.cause ≠ s.cause ∨ t.finfo = s.finfo) ∧
    (i.op ∈ [Op.rdcr, .rdm] ∨ t.rdata = s.rdata) ∧
    (i.op ∈ [Op.xork, .combine] ∨ t.out = s.out) ∧
    t.cfg = s.cfg ∧ t.key = s.key ∧ t.inp = s.inp ∧ t.outRoom = s.outRoom ∧ t.pending = s.pending

/-- No command touches an OUT byte at or above `LEN` (R53, R58). -/
def Obligations.OutBeyondLengthUntouched : Prop :=
  ∀ (i : Instr) (s t : State), exec i s = .next t →
    ∀ a, s.len.toNat ≤ a → Memory.read t.out a = Memory.read s.out a

/-- What a command does depends on KEY below 32 and IN below `LEN` only, and never on what OUT holds (R51, R52, R53, R58):
with other contents elsewhere it completes too, with the same registers and matrices, and writes the same bytes at the same
places of OUT. -/
def Obligations.OnlyTheBuffersAreRead : Prop :=
  ∀ (i : Instr) (s t : State) (key inp out : Memory),
    (∀ a < 32, Memory.read key a = Memory.read s.key a) → (∀ a < s.len.toNat, Memory.read inp a = Memory.read s.inp a) →
    exec i s = .next t →
      ∃ out', exec i { s with key := key, inp := inp, out := out } = .next { t with key := key, inp := inp, out := out' } ∧
        ∀ a, Memory.read out' a = Memory.read t.out a ∨
          (Memory.read t.out a = Memory.read s.out a ∧ Memory.read out' a = Memory.read out a)

/-- No action of the host, a reset among them, changes the parameters (R34, R180). -/
def Obligations.ParametersNeverChange : Prop :=
  ∀ s t : State, step s = .next t → t.cfg = s.cfg

/-- The invariant holds after reset. -/
def Obligations.ResetHasInvariant : Prop :=
  State.reset.Inv

/-- Every step from a state of the invariant leads to one (R31, R32, R40, R161). -/
def Obligations.StepKeepsInvariant : Prop :=
  ∀ s t : State, s.Inv → step s = .next t → t.Inv

/-! Reset in the middle of a command that runs on one storage, or while the host writes. -/

/-- A command on one storage for IN and OUT, abandoned by a reset after `n` bytes: the unit is as reset leaves it; of the bytes an
`XORK` or a `COMBINE` writes, those among the first `n` stand in the place of the input bytes they overwrote, and the rest of the
storage is as before; a command that writes none, faults or meets the fault state leaves the storage as it was (R180, R66).
DEDUCED from the two rules (log 21); that the host's action carries `n`, any number, is log 9, and that both spaces are afterwards
the one storage is log 10. -/
def Obligations.ResetAbandonsInPlaceCommand : Prop :=
  ∀ (s : State) (n : Nat) (rest : List HostEvent),
    (∀ (m : Word) (b : Nat → Byte), s.pending = .commandInPlaceCutByReset (encode (.xork m)) n :: rest →
      s.cause = 0 → s.inited = true → m.toNat ≤ 64 → s.pos.toNat + m.toNat ≤ s.len.toNat →
      (∀ k < min n m.toNat, Memory.read s.inp (s.pos.toNat + k) = some (b k) ∧ s.pos.toNat + k < s.outRoom) →
      ∃ mem, step s = .next { ResetFrom s mem rest with inp := mem } ∧
        (∀ k < min n m.toNat, Memory.read mem (s.pos.toNat + k) = some (b k ^^^ keystream s.o k)) ∧
        (∀ a, a < s.pos.toNat ∨ s.pos.toNat + min n m.toNat ≤ a → Memory.read mem a = Memory.read s.inp a)) ∧
    (∀ b : Nat → Byte, s.pending = .commandInPlaceCutByReset (encode .combine) n :: rest → s.cause = 0 → s.inited = true →
      (∀ j < min n s.len.toNat, Memory.read s.inp j = some (b j) ∧ j < s.outRoom) →
      ∃ mem, step s = .next { ResetFrom s mem rest with inp := mem } ∧
        (∀ j < min n s.len.toNat, Memory.read mem j =
          some (b j ^^^ keystream (blockAt s (s.ctr + BitVec.ofNat 64 (j / 64))).o (j % 64))) ∧
        (∀ a, min n s.len.toNat ≤ a → Memory.read mem a = Memory.read s.inp a)) ∧
    (∀ i : Instr, s.pending = .commandInPlaceCutByReset (encode i) n :: rest →
      s.cause ≠ 0 ∨ i.op ∉ [Op.xork, .combine] ∨ faultOf i s ≠ none → step s = .next (ResetFrom s s.inp rest)) ∧
    (∀ (cw : CommandWord) (why : Illegal), s.pending = .commandInPlaceCutByReset cw n :: rest →
      decode cw = .illegal why → step s = .next (ResetFrom s s.inp rest))

/-- A command abandoned by a reset after `n` bytes of OUT while the host, against its obligation, writes IN: the unit is as reset
leaves it; of the OUT bytes an `XORK` or a `COMBINE` writes, those among the first `n` are the drawn bytes combined, and the rest
are not written; a command that writes none, faults or meets the fault state leaves OUT as it was (R180, R61). Model's choice: KEY
and IN are as before the command until the host's next actions say otherwise (log 8), and the host's action carries `n`, any number
(log 9). -/
def Obligations.ResetAbandonsDisturbedCommand : Prop :=
  ∀ (s : State) (key inp : Memory) (n : Nat) (rest : List HostEvent),
    (∀ (m : Word) (d : Nat → Byte), s.pending = .commandWhileHostWritesCutByReset (encode (.xork m)) key inp n :: rest →
      s.cause = 0 → s.inited = true → m.toNat ≤ 64 → s.pos.toNat + m.toNat ≤ s.len.toNat →
      (∀ k < min n m.toNat, Memory.read inp (s.pos.toNat + k) = some (d k) ∧ s.pos.toNat + k < s.outRoom) →
      ∃ out, step s = .next (ResetFrom s out rest) ∧
        (∀ k < min n m.toNat, Memory.read out (s.pos.toNat + k) = some (d k ^^^ keystream s.o k)) ∧
        (∀ a, a < s.pos.toNat ∨ s.pos.toNat + min n m.toNat ≤ a → Memory.read out a = Memory.read s.out a)) ∧
    (∀ d : Nat → Byte, s.pending = .commandWhileHostWritesCutByReset (encode .combine) key inp n :: rest →
      s.cause = 0 → s.inited = true → (∀ j < min n s.len.toNat, Memory.read inp j = some (d j) ∧ j < s.outRoom) →
      ∃ out, step s = .next (ResetFrom s out rest) ∧
        (∀ j < min n s.len.toNat, Memory.read out j =
          some (d j ^^^ keystream (blockAt s (s.ctr + BitVec.ofNat 64 (j / 64))).o (j % 64))) ∧
        (∀ a, min n s.len.toNat ≤ a → Memory.read out a = Memory.read s.out a)) ∧
    (∀ i : Instr, s.pending = .commandWhileHostWritesCutByReset (encode i) key inp n :: rest →
      s.cause ≠ 0 ∨ i.op ∉ [Op.xork, .combine] ∨ faultOf i s ≠ none → step s = .next (ResetFrom s s.out rest)) ∧
    (∀ (cw : CommandWord) (why : Illegal), s.pending = .commandWhileHostWritesCutByReset cw key inp n :: rest →
      decode cw = .illegal why → step s = .next (ResetFrom s s.out rest))
end

