-- ==== Sys2Proof/Laws/Matrix.lean ====
section
/-! SUPPORT. The cells of a matrix: what a write, a grid and a quarter round do to each of them. -/

namespace Sys2Proof.Machine

theorem cellOf_eq_getElem (m : WordMatrix) (i : Cell) : cellOf m i = m[i.val] := rfl

/-- A cell after a write of a cell. -/
theorem cellOf_setCell (m : WordMatrix) (i j : Cell) (v : Word) :
    cellOf (setCell m i v) j = if j = i then v else cellOf m j := by
  simp only [cellOf, setCell, Vector.getElem_set]
  by_cases h : j = i
  · simp [h]
  · have : i.val ≠ j.val := fun e => h (Fin.ext e.symm)
    simp [h, this]

@[simp] theorem cellOf_setCell_same (m : WordMatrix) (i : Cell) (v : Word) : cellOf (setCell m i v) i = v := by
  simp [cellOf_setCell]

theorem cellOf_setCell_other (m : WordMatrix) {i j : Cell} (v : Word) (h : j ≠ i) :
    cellOf (setCell m i v) j = cellOf m j := by
  simp [cellOf_setCell, h]

/-- Two matrices with the same cells are the same. -/
theorem matrix_ext {m n : WordMatrix} (h : ∀ i, cellOf m i = cellOf n i) : m = n := by
  apply Vector.ext
  intro i hi
  exact h ⟨i, hi⟩

@[simp] theorem cellOf_gridOf (f : Cell → Word) (i : Cell) : cellOf (gridOf f) i = f i := by
  fin_cases i <;> rfl

@[simp] theorem cellOf_zeroMatrix (i : Cell) : cellOf zeroMatrix i = 0 := by
  fin_cases i <;> rfl

@[simp] theorem cellOf_feedForward (w x : WordMatrix) (i : Cell) :
    cellOf (feedForward w x) i = add32 (cellOf w i) (cellOf x i) := by
  simp [feedForward]

/-- The matrix with the counter in it: cells 8 and 9 are the counter's words, the fourteen others are as they were. -/
theorem cellOf_withCounter (e : CounterEncoding) (ctr : DWord) (x : WordMatrix) (i : Cell) :
    cellOf (withCounter e ctr x) i = if i = 9 then ctrHi e ctr else if i = 8 then ctrLo e ctr else cellOf x i := by
  simp [withCounter, cellOf_setCell]

/-- The counter cells of the matrix do not matter once the counter is written. -/
theorem withCounter_congr (e : CounterEncoding) (ctr : DWord) {x y : WordMatrix}
    (h : ∀ i : Cell, i ≠ 8 → i ≠ 9 → cellOf x i = cellOf y i) : withCounter e ctr x = withCounter e ctr y := by
  apply matrix_ext
  intro i
  simp only [cellOf_withCounter]
  split
  · rfl
  · split
    · rfl
    · exact h i ‹_› ‹_›

/-- A cell after an ARX step. -/
theorem cellOf_arx (m : WordMatrix) (t u v : Cell) (r : Nat) (j : Cell) :
    cellOf (arx m t u v r) j =
      if j = t then xor32 (cellOf m t) (rotl32 (add32 (cellOf m u) (cellOf m v)) r) else cellOf m j := by
  simp [arx, cellOf_setCell]

theorem distinctCells_iff (a b c d : Cell) :
    distinctCells a b c d = true ↔ a ≠ b ∧ a ≠ c ∧ a ≠ d ∧ b ≠ c ∧ b ≠ d ∧ c ≠ d := by
  simp [distinctCells, and_assoc]

/-- Every cell after a quarter round on four distinct cells (R111). -/
theorem cellOf_quarterRound (m : WordMatrix) {a b c d : Cell} (h : distinctCells a b c d = true) (j : Cell) :
    cellOf (quarterRound m a b c d) j =
      let z1 := xor32 (cellOf m b) (rotl32 (add32 (cellOf m a) (cellOf m d)) 7)
      let z2 := xor32 (cellOf m c) (rotl32 (add32 z1 (cellOf m a)) 9)
      let z3 := xor32 (cellOf m d) (rotl32 (add32 z2 z1) 13)
      let z0 := xor32 (cellOf m a) (rotl32 (add32 z3 z2) 18)
      if j = a then z0 else if j = b then z1 else if j = c then z2 else if j = d then z3 else cellOf m j := by
  obtain ⟨hab, hac, had, hbc, hbd, hcd⟩ := (distinctCells_iff a b c d).1 h
  have hba := hab.symm
  have hca := hac.symm
  have hda := had.symm
  have hcb := hbc.symm
  have hdb := hbd.symm
  have hdc := hcd.symm
  simp only [quarterRound, cellOf_arx, if_neg hab, if_neg hac, if_neg had, if_neg hbc, if_neg hcd, if_neg hcb,
    if_neg hdb, if_neg hdc, if_true]
  by_cases h1 : j = a
  · simp [h1]
  · by_cases h2 : j = b
    · subst h2; simp [hba, hbc, hbd]
    · by_cases h3 : j = c
      · subst h3; simp [hca, hcb, hcd]
      · by_cases h4 : j = d
        · subst h4; simp [hda, hdb, hdc]
        · simp [h1, h2, h3, h4]

end Sys2Proof.Machine
end

