-- ==== Sys2Proof/Laws/Memory.lean ====
section
/-! SUPPORT. The laws of the host's memories: a read after a write, the canonical form, and what an admitted access does. -/

namespace Sys2Proof.Machine

@[simp] theorem Memory.read_nil (a : Nat) : Memory.read [] a = none := rfl

/-- A read after a write: the byte written at its address, what was there before at every other. -/
theorem Memory.read_write (m : Memory) (a b : Nat) (v : Byte) :
    Memory.read (Memory.write m a v) b = if a = b then some v else Memory.read m b := by
  induction m with
  | nil => simp [Memory.write, Memory.read]
  | cons c rest ih =>
    obtain ⟨k, u⟩ := c
    simp only [Memory.write]
    split
    · simp [Memory.read]
    · split
      · next h => subst h; by_cases hb : a = b <;> simp [Memory.read, hb]
      · next h1 h2 =>
        simp only [Memory.read, ih]
        by_cases hk : k = b
        · simp [hk, show a ≠ b by omega]
        · simp [hk]

@[simp] theorem Memory.read_write_same (m : Memory) (a : Nat) (v : Byte) : Memory.read (Memory.write m a v) a = some v := by
  simp [Memory.read_write]

theorem Memory.read_write_other (m : Memory) {a b : Nat} (v : Byte) (h : a ≠ b) :
    Memory.read (Memory.write m a v) b = Memory.read m b := by
  simp [Memory.read_write, h]

/-- The canonical form, cell by cell: every listed address is below 2^64, and below every later one. -/
theorem Memory.wf_iff (m : Memory) :
    Memory.wf m = true ↔ (∀ c ∈ m, c.1 < 2 ^ 64) ∧ m.Pairwise fun c d => c.1 < d.1 := by
  induction m with
  | nil => simp [Memory.wf]
  | cons c rest ih =>
    cases rest with
    | nil => simp [Memory.wf]
    | cons d rest =>
      obtain ⟨a, u⟩ := c
      obtain ⟨b, v⟩ := d
      simp only [Memory.wf, Bool.and_eq_true, decide_eq_true_eq, ih]
      constructor
      · rintro ⟨hab, hb, hp⟩
        refine ⟨?_, ?_⟩
        · intro c hc
          rcases List.mem_cons.1 hc with rfl | hc
          · have := hb (b, v) (by simp)
            simp only at this ⊢; omega
          · exact hb c hc
        · rw [List.pairwise_cons]
          refine ⟨?_, hp⟩
          intro c hc
          rcases List.mem_cons.1 hc with rfl | hc
          · exact hab
          · have := (List.pairwise_cons.1 hp).1 c hc
            simp only at this ⊢; omega
      · rintro ⟨hb, hp⟩
        refine ⟨(List.pairwise_cons.1 hp).1 (b, v) (by simp), ?_, (List.pairwise_cons.1 hp).2⟩
        intro c hc
        exact hb c (List.mem_cons_of_mem _ hc)

theorem Memory.mem_write {m : Memory} {a : Nat} {v : Byte} {c : Host.Cell} (h : c ∈ Memory.write m a v) :
    c = (a, v) ∨ c ∈ m := by
  induction m with
  | nil => simpa [Memory.write] using h
  | cons d rest ih =>
    obtain ⟨k, u⟩ := d
    simp only [Memory.write] at h
    split at h
    · simpa using h
    · split at h
      · rcases List.mem_cons.1 h with h | h
        · exact .inl h
        · exact .inr (List.mem_cons_of_mem _ h)
      · rcases List.mem_cons.1 h with h | h
        · exact .inr (by simp [h])
        · rcases ih h with h | h
          · exact .inl h
          · exact .inr (List.mem_cons_of_mem _ h)

/-- A write of an address of the space keeps the canonical form. -/
theorem Memory.wf_write {m : Memory} (h : Memory.wf m = true) {a : Nat} (ha : a < 2 ^ 64) (v : Byte) :
    Memory.wf (Memory.write m a v) = true := by
  rw [Memory.wf_iff] at h ⊢
  refine ⟨?_, ?_⟩
  · intro c hc
    rcases Memory.mem_write hc with rfl | hc
    · exact ha
    · exact h.1 c hc
  · replace h := h.2
    induction m with
    | nil => simp [Memory.write]
    | cons d rest ih =>
      obtain ⟨k, u⟩ := d
      obtain ⟨hk, hp⟩ := List.pairwise_cons.1 h
      simp only [Memory.write]
      split
      · next hak =>
        refine List.pairwise_cons.2 ⟨?_, h⟩
        intro c hc
        rcases List.mem_cons.1 hc with rfl | hc
        · exact hak
        · have := hk c hc
          simp only at this ⊢; omega
      · split
        · next hak => subst hak; exact List.pairwise_cons.2 ⟨hk, hp⟩
        · next h1 h2 =>
          refine List.pairwise_cons.2 ⟨?_, ih hp⟩
          intro c hc
          rcases Memory.mem_write hc with rfl | hc
          · simp only; omega
          · exact hk c hc

theorem Memory.erase_sublist (m : Memory) (a : Nat) : (Memory.erase m a).Sublist m := by
  induction m with
  | nil => simp [Memory.erase]
  | cons d rest ih =>
    obtain ⟨k, u⟩ := d
    simp only [Memory.erase]
    split
    · exact List.sublist_cons_self _ _
    · exact ih.cons_cons _

/-- Withdrawing a byte keeps the canonical form. -/
theorem Memory.wf_erase {m : Memory} (h : Memory.wf m = true) (a : Nat) : Memory.wf (Memory.erase m a) = true := by
  rw [Memory.wf_iff] at h ⊢
  exact ⟨fun c hc => h.1 c ((Memory.erase_sublist m a).subset hc), h.2.sublist (Memory.erase_sublist m a)⟩

/-- The host's memories have the canonical form after reset. -/
theorem State.reset_memory_wf (space : Space) : Memory.wf (State.reset.memory space) = true := by
  cases space <;> rfl

/-- `MemWrite` keeps the canonical form, at an address of a 64-bit space. -/
theorem wf_memWrite {room : Nat} {m m' : Memory} {a : Nat} {v : Byte} (hm : Memory.wf m = true) (ha : a < 2 ^ 64)
    (h : memWrite room m a v = .ok m') : Memory.wf m' = true := by
  unfold memWrite at h
  split at h
  · cases h
    exact Memory.wf_write hm ha v
  · cases h

/-- `MemRead`: the byte that is there, or a refused access. -/
theorem memRead_ok_iff (space : Space) (m : Memory) (a : Nat) (v : Byte) :
    memRead space m a = .ok v ↔ Memory.read m a = some v := by
  unfold memRead
  split <;> simp_all

/-- `MemWrite`: a write where there is room, or a refused access. -/
theorem memWrite_ok_iff (room : Nat) (m : Memory) (a : Nat) (v : Byte) (m' : Memory) :
    memWrite room m a v = .ok m' ↔ a < room ∧ m' = Memory.write m a v := by
  unfold memWrite
  split
  · next h => simp [h, eq_comm]
  · next h => simp [h]

/-- The bytes of a range that is all there. -/
theorem memReadBytes_eq_ok (space : Space) (m : Memory) (b : Nat → Byte) (n : Nat) :
    ∀ addr, (∀ k < n, Memory.read m (addr + k) = some (b (addr + k))) →
      memReadBytes space m addr n = .ok ((List.range' addr n).map b) := by
  induction n with
  | zero => intro addr _; rfl
  | succ n ih =>
    intro addr h
    have h0 : memRead space m addr = .ok (b addr) := (memRead_ok_iff ..).2 (by simpa using h 0 (by omega))
    have h1 := ih (addr + 1) (fun k hk => by simpa [Nat.add_assoc, Nat.add_comm 1 k] using h (k + 1) (by omega))
    simp [memReadBytes, h0, h1, List.range'_succ]

/-- What reading a range can do: give its bytes, each of them there, or refuse an access. -/
theorem memReadBytes_ok {space : Space} {m : Memory} {addr n : Nat} {bs : List Byte}
    (h : memReadBytes space m addr n = .ok bs) :
    bs.length = n ∧ ∀ k < n, Memory.read m (addr + k) = some (bs.getD k 0) := by
  induction n generalizing addr bs with
  | zero =>
    simp only [memReadBytes, Except.ok.injEq] at h
    subst h
    simp
  | succ n ih =>
    simp only [memReadBytes] at h
    split at h
    · cases h
    · next v hv =>
      split at h
      · cases h
      · next vs hvs =>
        simp only [Except.ok.injEq] at h
        subst h
        obtain ⟨hl, hr⟩ := ih hvs
        refine ⟨by simp [hl], ?_⟩
        intro k hk
        cases k with
        | zero => simpa using (memRead_ok_iff ..).1 hv
        | succ k =>
          have := hr k (by omega)
          simpa [Nat.add_assoc, Nat.add_comm 1 k] using this

/-- When a read of `n` bytes is refused, it names an address of the range that holds no byte. -/
theorem memReadBytes_error {space : Space} {m : Memory} {addr n : Nat} {f : Fault}
    (h : memReadBytes space m addr n = .error f) :
    ∃ k < n, f = .accessNotAdmitted space (addr + k) ∧ Memory.read m (addr + k) = none := by
  induction n generalizing addr with
  | zero => cases h
  | succ n ih =>
    unfold memReadBytes memRead at h
    cases hm : Memory.read m addr with
    | none =>
      rw [hm] at h
      cases h
      exact ⟨0, by omega, rfl, hm⟩
    | some v =>
      rw [hm] at h
      simp only at h
      split at h
      · next f' hf =>
        cases h
        obtain ⟨k, hk, h1, h2⟩ := ih hf
        have e : addr + 1 + k = addr + (k + 1) := by omega
        rw [e] at h1 h2
        exact ⟨k + 1, by omega, h1, h2⟩
      · cases h

end Sys2Proof.Machine
end

