-- ==== Sys2Proof/Laws/State.lean ====
section
/-! SUPPORT. What each named update of the state does to each field: true by definition, for simp, so that no proof unfolds a
record update. -/

namespace Sys2Proof.Machine

/-! `raise`. -/

@[simp] theorem raise_w (c : Cause) (info : Word) (s : State) : (raise c info s).w = s.w := rfl
@[simp] theorem raise_x (c : Cause) (info : Word) (s : State) : (raise c info s).x = s.x := rfl
@[simp] theorem raise_o (c : Cause) (info : Word) (s : State) : (raise c info s).o = s.o := rfl
@[simp] theorem raise_ctr (c : Cause) (info : Word) (s : State) : (raise c info s).ctr = s.ctr := rfl
@[simp] theorem raise_len (c : Cause) (info : Word) (s : State) : (raise c info s).len = s.len := rfl
@[simp] theorem raise_pos (c : Cause) (info : Word) (s : State) : (raise c info s).pos = s.pos := rfl
@[simp] theorem raise_status (c : Cause) (info : Word) (s : State) : (raise c info s).status = setCause s.status c.code := rfl
@[simp] theorem raise_finfo (c : Cause) (info : Word) (s : State) : (raise c info s).finfo = info := rfl
@[simp] theorem raise_rdata (c : Cause) (info : Word) (s : State) : (raise c info s).rdata = s.rdata := rfl
@[simp] theorem raise_cfg (c : Cause) (info : Word) (s : State) : (raise c info s).cfg = s.cfg := rfl
@[simp] theorem raise_key (c : Cause) (info : Word) (s : State) : (raise c info s).key = s.key := rfl
@[simp] theorem raise_inp (c : Cause) (info : Word) (s : State) : (raise c info s).inp = s.inp := rfl
@[simp] theorem raise_out (c : Cause) (info : Word) (s : State) : (raise c info s).out = s.out := rfl
@[simp] theorem raise_outRoom (c : Cause) (info : Word) (s : State) : (raise c info s).outRoom = s.outRoom := rfl
@[simp] theorem raise_pending (c : Cause) (info : Word) (s : State) : (raise c info s).pending = s.pending := rfl

/-! `raiseBy`. -/

@[simp] theorem raiseBy_w (c : Cause) (i : Instr) (s : State) : (raiseBy c i s).w = s.w := rfl
@[simp] theorem raiseBy_x (c : Cause) (i : Instr) (s : State) : (raiseBy c i s).x = s.x := rfl
@[simp] theorem raiseBy_o (c : Cause) (i : Instr) (s : State) : (raiseBy c i s).o = s.o := rfl
@[simp] theorem raiseBy_ctr (c : Cause) (i : Instr) (s : State) : (raiseBy c i s).ctr = s.ctr := rfl
@[simp] theorem raiseBy_len (c : Cause) (i : Instr) (s : State) : (raiseBy c i s).len = s.len := rfl
@[simp] theorem raiseBy_pos (c : Cause) (i : Instr) (s : State) : (raiseBy c i s).pos = s.pos := rfl
@[simp] theorem raiseBy_status (c : Cause) (i : Instr) (s : State) : (raiseBy c i s).status = setCause s.status c.code := rfl
@[simp] theorem raiseBy_finfo (c : Cause) (i : Instr) (s : State) : (raiseBy c i s).finfo = upperHalf (encode i) := rfl
@[simp] theorem raiseBy_rdata (c : Cause) (i : Instr) (s : State) : (raiseBy c i s).rdata = s.rdata := rfl
@[simp] theorem raiseBy_cfg (c : Cause) (i : Instr) (s : State) : (raiseBy c i s).cfg = s.cfg := rfl
@[simp] theorem raiseBy_key (c : Cause) (i : Instr) (s : State) : (raiseBy c i s).key = s.key := rfl
@[simp] theorem raiseBy_inp (c : Cause) (i : Instr) (s : State) : (raiseBy c i s).inp = s.inp := rfl
@[simp] theorem raiseBy_out (c : Cause) (i : Instr) (s : State) : (raiseBy c i s).out = s.out := rfl
@[simp] theorem raiseBy_outRoom (c : Cause) (i : Instr) (s : State) : (raiseBy c i s).outRoom = s.outRoom := rfl
@[simp] theorem raiseBy_pending (c : Cause) (i : Instr) (s : State) : (raiseBy c i s).pending = s.pending := rfl

/-! `resetUnit`. -/

@[simp] theorem resetUnit_w (s : State) : (resetUnit s).w = zeroMatrix := rfl
@[simp] theorem resetUnit_x (s : State) : (resetUnit s).x = zeroMatrix := rfl
@[simp] theorem resetUnit_o (s : State) : (resetUnit s).o = zeroMatrix := rfl
@[simp] theorem resetUnit_ctr (s : State) : (resetUnit s).ctr = 0 := rfl
@[simp] theorem resetUnit_len (s : State) : (resetUnit s).len = 0 := rfl
@[simp] theorem resetUnit_pos (s : State) : (resetUnit s).pos = 0 := rfl
@[simp] theorem resetUnit_status (s : State) : (resetUnit s).status = 0 := rfl
@[simp] theorem resetUnit_finfo (s : State) : (resetUnit s).finfo = 0 := rfl
@[simp] theorem resetUnit_rdata (s : State) : (resetUnit s).rdata = 0 := rfl
@[simp] theorem resetUnit_cfg (s : State) : (resetUnit s).cfg = s.cfg := rfl
@[simp] theorem resetUnit_key (s : State) : (resetUnit s).key = s.key := rfl
@[simp] theorem resetUnit_inp (s : State) : (resetUnit s).inp = s.inp := rfl
@[simp] theorem resetUnit_out (s : State) : (resetUnit s).out = s.out := rfl
@[simp] theorem resetUnit_outRoom (s : State) : (resetUnit s).outRoom = s.outRoom := rfl
@[simp] theorem resetUnit_pending (s : State) : (resetUnit s).pending = s.pending := rfl

/-! `consume`. -/

@[simp] theorem consume_w (s : State) : s.consume.w = s.w := rfl
@[simp] theorem consume_x (s : State) : s.consume.x = s.x := rfl
@[simp] theorem consume_o (s : State) : s.consume.o = s.o := rfl
@[simp] theorem consume_ctr (s : State) : s.consume.ctr = s.ctr := rfl
@[simp] theorem consume_len (s : State) : s.consume.len = s.len := rfl
@[simp] theorem consume_pos (s : State) : s.consume.pos = s.pos := rfl
@[simp] theorem consume_status (s : State) : s.consume.status = s.status := rfl
@[simp] theorem consume_finfo (s : State) : s.consume.finfo = s.finfo := rfl
@[simp] theorem consume_rdata (s : State) : s.consume.rdata = s.rdata := rfl
@[simp] theorem consume_cfg (s : State) : s.consume.cfg = s.cfg := rfl
@[simp] theorem consume_key (s : State) : s.consume.key = s.key := rfl
@[simp] theorem consume_inp (s : State) : s.consume.inp = s.inp := rfl
@[simp] theorem consume_out (s : State) : s.consume.out = s.out := rfl
@[simp] theorem consume_outRoom (s : State) : s.consume.outRoom = s.outRoom := rfl
@[simp] theorem consume_pending (s : State) : s.consume.pending = s.pending.tail := rfl

@[simp] theorem consume_cause (s : State) : s.consume.cause = s.cause := rfl
@[simp] theorem consume_inited (s : State) : s.consume.inited = s.inited := rfl

/-! `initWith`. -/

@[simp] theorem initWith_w (bytes : List Byte) (s : State) : (initWith bytes s).w = s.w := rfl
@[simp] theorem initWith_x (bytes : List Byte) (s : State) : (initWith bytes s).x = initialMatrix s.cfg bytes := rfl
@[simp] theorem initWith_o (bytes : List Byte) (s : State) : (initWith bytes s).o = s.o := rfl
@[simp] theorem initWith_ctr (bytes : List Byte) (s : State) : (initWith bytes s).ctr = 0 := rfl
@[simp] theorem initWith_len (bytes : List Byte) (s : State) : (initWith bytes s).len = s.len := rfl
@[simp] theorem initWith_pos (bytes : List Byte) (s : State) : (initWith bytes s).pos = s.pos := rfl
@[simp] theorem initWith_status (bytes : List Byte) (s : State) : (initWith bytes s).status = setInited s.status := rfl
@[simp] theorem initWith_finfo (bytes : List Byte) (s : State) : (initWith bytes s).finfo = s.finfo := rfl
@[simp] theorem initWith_rdata (bytes : List Byte) (s : State) : (initWith bytes s).rdata = s.rdata := rfl
@[simp] theorem initWith_cfg (bytes : List Byte) (s : State) : (initWith bytes s).cfg = s.cfg := rfl
@[simp] theorem initWith_key (bytes : List Byte) (s : State) : (initWith bytes s).key = s.key := rfl
@[simp] theorem initWith_inp (bytes : List Byte) (s : State) : (initWith bytes s).inp = s.inp := rfl
@[simp] theorem initWith_out (bytes : List Byte) (s : State) : (initWith bytes s).out = s.out := rfl
@[simp] theorem initWith_outRoom (bytes : List Byte) (s : State) : (initWith bytes s).outRoom = s.outRoom := rfl
@[simp] theorem initWith_pending (bytes : List Byte) (s : State) : (initWith bytes s).pending = s.pending := rfl

/-! `writeCounter`. -/

@[simp] theorem writeCounter_w (s : State) : (writeCounter s).w = s.w := rfl
@[simp] theorem writeCounter_x (s : State) : (writeCounter s).x = withCounter s.cfg.counterEncoding s.ctr s.x := rfl
@[simp] theorem writeCounter_o (s : State) : (writeCounter s).o = s.o := rfl
@[simp] theorem writeCounter_ctr (s : State) : (writeCounter s).ctr = s.ctr := rfl
@[simp] theorem writeCounter_len (s : State) : (writeCounter s).len = s.len := rfl
@[simp] theorem writeCounter_pos (s : State) : (writeCounter s).pos = s.pos := rfl
@[simp] theorem writeCounter_status (s : State) : (writeCounter s).status = s.status := rfl
@[simp] theorem writeCounter_finfo (s : State) : (writeCounter s).finfo = s.finfo := rfl
@[simp] theorem writeCounter_rdata (s : State) : (writeCounter s).rdata = s.rdata := rfl
@[simp] theorem writeCounter_cfg (s : State) : (writeCounter s).cfg = s.cfg := rfl
@[simp] theorem writeCounter_key (s : State) : (writeCounter s).key = s.key := rfl
@[simp] theorem writeCounter_inp (s : State) : (writeCounter s).inp = s.inp := rfl
@[simp] theorem writeCounter_out (s : State) : (writeCounter s).out = s.out := rfl
@[simp] theorem writeCounter_outRoom (s : State) : (writeCounter s).outRoom = s.outRoom := rfl
@[simp] theorem writeCounter_pending (s : State) : (writeCounter s).pending = s.pending := rfl

@[simp] theorem writeCounter_cause (s : State) : (writeCounter s).cause = s.cause := rfl
@[simp] theorem writeCounter_inited (s : State) : (writeCounter s).inited = s.inited := rfl

/-! `loadWorking`. -/

@[simp] theorem loadWorking_w (s : State) : (loadWorking s).w = s.x := rfl
@[simp] theorem loadWorking_x (s : State) : (loadWorking s).x = s.x := rfl
@[simp] theorem loadWorking_o (s : State) : (loadWorking s).o = s.o := rfl
@[simp] theorem loadWorking_ctr (s : State) : (loadWorking s).ctr = s.ctr := rfl
@[simp] theorem loadWorking_len (s : State) : (loadWorking s).len = s.len := rfl
@[simp] theorem loadWorking_pos (s : State) : (loadWorking s).pos = s.pos := rfl
@[simp] theorem loadWorking_status (s : State) : (loadWorking s).status = s.status := rfl
@[simp] theorem loadWorking_finfo (s : State) : (loadWorking s).finfo = s.finfo := rfl
@[simp] theorem loadWorking_rdata (s : State) : (loadWorking s).rdata = s.rdata := rfl
@[simp] theorem loadWorking_cfg (s : State) : (loadWorking s).cfg = s.cfg := rfl
@[simp] theorem loadWorking_key (s : State) : (loadWorking s).key = s.key := rfl
@[simp] theorem loadWorking_inp (s : State) : (loadWorking s).inp = s.inp := rfl
@[simp] theorem loadWorking_out (s : State) : (loadWorking s).out = s.out := rfl
@[simp] theorem loadWorking_outRoom (s : State) : (loadWorking s).outRoom = s.outRoom := rfl
@[simp] theorem loadWorking_pending (s : State) : (loadWorking s).pending = s.pending := rfl

@[simp] theorem loadWorking_cause (s : State) : (loadWorking s).cause = s.cause := rfl
@[simp] theorem loadWorking_inited (s : State) : (loadWorking s).inited = s.inited := rfl

/-! `permuteWorking`. -/

@[simp] theorem permuteWorking_w (s : State) : (permuteWorking s).w = permute s.w := rfl
@[simp] theorem permuteWorking_x (s : State) : (permuteWorking s).x = s.x := rfl
@[simp] theorem permuteWorking_o (s : State) : (permuteWorking s).o = s.o := rfl
@[simp] theorem permuteWorking_ctr (s : State) : (permuteWorking s).ctr = s.ctr := rfl
@[simp] theorem permuteWorking_len (s : State) : (permuteWorking s).len = s.len := rfl
@[simp] theorem permuteWorking_pos (s : State) : (permuteWorking s).pos = s.pos := rfl
@[simp] theorem permuteWorking_status (s : State) : (permuteWorking s).status = s.status := rfl
@[simp] theorem permuteWorking_finfo (s : State) : (permuteWorking s).finfo = s.finfo := rfl
@[simp] theorem permuteWorking_rdata (s : State) : (permuteWorking s).rdata = s.rdata := rfl
@[simp] theorem permuteWorking_cfg (s : State) : (permuteWorking s).cfg = s.cfg := rfl
@[simp] theorem permuteWorking_key (s : State) : (permuteWorking s).key = s.key := rfl
@[simp] theorem permuteWorking_inp (s : State) : (permuteWorking s).inp = s.inp := rfl
@[simp] theorem permuteWorking_out (s : State) : (permuteWorking s).out = s.out := rfl
@[simp] theorem permuteWorking_outRoom (s : State) : (permuteWorking s).outRoom = s.outRoom := rfl
@[simp] theorem permuteWorking_pending (s : State) : (permuteWorking s).pending = s.pending := rfl

@[simp] theorem permuteWorking_cause (s : State) : (permuteWorking s).cause = s.cause := rfl
@[simp] theorem permuteWorking_inited (s : State) : (permuteWorking s).inited = s.inited := rfl

/-! `addInitial`. -/

@[simp] theorem addInitial_w (s : State) : (addInitial s).w = s.w := rfl
@[simp] theorem addInitial_x (s : State) : (addInitial s).x = s.x := rfl
@[simp] theorem addInitial_o (s : State) : (addInitial s).o = feedForward s.w s.x := rfl
@[simp] theorem addInitial_ctr (s : State) : (addInitial s).ctr = s.ctr := rfl
@[simp] theorem addInitial_len (s : State) : (addInitial s).len = s.len := rfl
@[simp] theorem addInitial_pos (s : State) : (addInitial s).pos = s.pos := rfl
@[simp] theorem addInitial_status (s : State) : (addInitial s).status = s.status := rfl
@[simp] theorem addInitial_finfo (s : State) : (addInitial s).finfo = s.finfo := rfl
@[simp] theorem addInitial_rdata (s : State) : (addInitial s).rdata = s.rdata := rfl
@[simp] theorem addInitial_cfg (s : State) : (addInitial s).cfg = s.cfg := rfl
@[simp] theorem addInitial_key (s : State) : (addInitial s).key = s.key := rfl
@[simp] theorem addInitial_inp (s : State) : (addInitial s).inp = s.inp := rfl
@[simp] theorem addInitial_out (s : State) : (addInitial s).out = s.out := rfl
@[simp] theorem addInitial_outRoom (s : State) : (addInitial s).outRoom = s.outRoom := rfl
@[simp] theorem addInitial_pending (s : State) : (addInitial s).pending = s.pending := rfl

@[simp] theorem addInitial_cause (s : State) : (addInitial s).cause = s.cause := rfl
@[simp] theorem addInitial_inited (s : State) : (addInitial s).inited = s.inited := rfl

/-! `makeBlock`. -/

@[simp] theorem makeBlock_w (s : State) : (makeBlock s).w = permute (withCounter s.cfg.counterEncoding s.ctr s.x) := rfl
@[simp] theorem makeBlock_x (s : State) : (makeBlock s).x = withCounter s.cfg.counterEncoding s.ctr s.x := rfl
@[simp] theorem makeBlock_o (s : State) :
    (makeBlock s).o =
      feedForward (permute (withCounter s.cfg.counterEncoding s.ctr s.x)) (withCounter s.cfg.counterEncoding s.ctr s.x) := rfl
@[simp] theorem makeBlock_ctr (s : State) : (makeBlock s).ctr = s.ctr := rfl
@[simp] theorem makeBlock_len (s : State) : (makeBlock s).len = s.len := rfl
@[simp] theorem makeBlock_pos (s : State) : (makeBlock s).pos = s.pos := rfl
@[simp] theorem makeBlock_status (s : State) : (makeBlock s).status = s.status := rfl
@[simp] theorem makeBlock_finfo (s : State) : (makeBlock s).finfo = s.finfo := rfl
@[simp] theorem makeBlock_rdata (s : State) : (makeBlock s).rdata = s.rdata := rfl
@[simp] theorem makeBlock_cfg (s : State) : (makeBlock s).cfg = s.cfg := rfl
@[simp] theorem makeBlock_key (s : State) : (makeBlock s).key = s.key := rfl
@[simp] theorem makeBlock_inp (s : State) : (makeBlock s).inp = s.inp := rfl
@[simp] theorem makeBlock_out (s : State) : (makeBlock s).out = s.out := rfl
@[simp] theorem makeBlock_outRoom (s : State) : (makeBlock s).outRoom = s.outRoom := rfl
@[simp] theorem makeBlock_pending (s : State) : (makeBlock s).pending = s.pending := rfl

@[simp] theorem makeBlock_cause (s : State) : (makeBlock s).cause = s.cause := rfl
@[simp] theorem makeBlock_inited (s : State) : (makeBlock s).inited = s.inited := rfl

/-! `incCounter`. -/

@[simp] theorem incCounter_w (s : State) : (incCounter s).w = s.w := rfl
@[simp] theorem incCounter_x (s : State) : (incCounter s).x = s.x := rfl
@[simp] theorem incCounter_o (s : State) : (incCounter s).o = s.o := rfl
@[simp] theorem incCounter_ctr (s : State) : (incCounter s).ctr = add64 s.ctr 1 := rfl
@[simp] theorem incCounter_len (s : State) : (incCounter s).len = s.len := rfl
@[simp] theorem incCounter_pos (s : State) : (incCounter s).pos = s.pos := rfl
@[simp] theorem incCounter_status (s : State) : (incCounter s).status = s.status := rfl
@[simp] theorem incCounter_finfo (s : State) : (incCounter s).finfo = s.finfo := rfl
@[simp] theorem incCounter_rdata (s : State) : (incCounter s).rdata = s.rdata := rfl
@[simp] theorem incCounter_cfg (s : State) : (incCounter s).cfg = s.cfg := rfl
@[simp] theorem incCounter_key (s : State) : (incCounter s).key = s.key := rfl
@[simp] theorem incCounter_inp (s : State) : (incCounter s).inp = s.inp := rfl
@[simp] theorem incCounter_out (s : State) : (incCounter s).out = s.out := rfl
@[simp] theorem incCounter_outRoom (s : State) : (incCounter s).outRoom = s.outRoom := rfl
@[simp] theorem incCounter_pending (s : State) : (incCounter s).pending = s.pending := rfl

@[simp] theorem incCounter_cause (s : State) : (incCounter s).cause = s.cause := rfl
@[simp] theorem incCounter_inited (s : State) : (incCounter s).inited = s.inited := rfl

end Sys2Proof.Machine
end

