-- ==== Sys2Proof/Laws/Status.lean ====
section
/-! SUPPORT. The two fields of `STATUS`: what a write of one does to both and to the reserved bits. -/

namespace Sys2Proof.Machine

@[simp] theorem initedOf_setInited (st : Word) : initedOf (setInited st) = true := by
  simp [initedOf, setInited]

@[simp] theorem causeOf_setInited (st : Word) : causeOf (setInited st) = causeOf st := by
  apply BitVec.eq_of_getLsbD_eq
  intro i hi
  have h1 : ((1 : Word).getLsbD (8 + i)) = false := by
    interval_cases i <;> decide
  simp only [causeOf, setInited, BitVec.getLsbD_extractLsb', BitVec.getLsbD_or, h1, Bool.or_false]

@[simp] theorem statusReserved_setInited (st : Word) : statusReserved (setInited st) = statusReserved st := by
  apply BitVec.eq_of_getLsbD_eq
  intro i hi
  have h1 : ((1 : Word).getLsbD i && (0xFFFFF0FE : Word).getLsbD i) = false := by
    interval_cases i <;> decide
  simp only [statusReserved, setInited, BitVec.getLsbD_and, BitVec.getLsbD_or, Bool.and_or_distrib_right, h1, Bool.or_false]

/-- Bit `i` of the status word after a write of `CAUSE`. -/
theorem getLsbD_setCause (st : Word) (c : BitVec 4) (i : Nat) (hi : i < 32) :
    (setCause st c).getLsbD i = if 8 ≤ i ∧ i < 12 then c.getLsbD (i - 8) else st.getLsbD i := by
  simp only [setCause, BitVec.getLsbD_append, BitVec.getLsbD_extractLsb']
  by_cases h8 : i < 8
  · have : ¬(8 ≤ i ∧ i < 12) := by omega
    simp [h8, this]
  · by_cases h12 : i < 12
    · have h4 : i - 8 < 4 := by omega
      simp [h8, h12, h4, show 8 ≤ i by omega]
    · have h4 : ¬ (i - 8 < 4) := by omega
      have h20 : i - 8 - 4 < 20 := by omega
      simp [h8, h12, h4, h20, show 12 + (i - 8 - 4) = i by omega]

@[simp] theorem initedOf_setCause (st : Word) (c : BitVec 4) : initedOf (setCause st c) = initedOf st := by
  simp only [initedOf, getLsbD_setCause st c 0 (by decide)]
  simp

@[simp] theorem causeOf_setCause (st : Word) (c : BitVec 4) : causeOf (setCause st c) = c := by
  apply BitVec.eq_of_getLsbD_eq
  intro i hi
  have h : 8 ≤ 8 + i ∧ 8 + i < 12 := by omega
  simp only [causeOf, BitVec.getLsbD_extractLsb', getLsbD_setCause st c (8 + i) (by omega), if_pos h]
  simp [hi]

@[simp] theorem statusReserved_setCause (st : Word) (c : BitVec 4) :
    statusReserved (setCause st c) = statusReserved st := by
  apply BitVec.eq_of_getLsbD_eq
  intro i hi
  simp only [statusReserved, BitVec.getLsbD_and, getLsbD_setCause st c i hi]
  by_cases h : 8 ≤ i ∧ i < 12
  · have hm : (0xFFFFF0FE : Word).getLsbD i = false := by
      obtain ⟨h1, h2⟩ := h
      interval_cases i <;> decide
    simp only [hm, Bool.and_false]
  · simp only [if_neg h]

/-- The codes of the causes are never the code of no fault. -/
theorem Cause.code_ne_zero (c : Cause) : c.code ≠ 0 := by
  cases c <;> decide

end Sys2Proof.Machine
end

