-- ==== Sys2Proof/Laws/Ops.lean ====
section
/-! SUPPORT. What each shared operation of a command can do, said once: the checks, fault entry, register access. -/

namespace Sys2Proof.Machine

/-! The fault state (R168). -/

theorem unlessFaulted_of_ready {s : State} (h : s.cause = 0) (k : Result) : unlessFaulted s k = k := by
  simp [unlessFaulted, h]

theorem unlessFaulted_of_faulted {s : State} (h : s.faulted) (k : Result) : unlessFaulted s k = .next s :=
  if_pos h

/-- A command that is ignored in the fault state answers a next state: either the unit is in the fault state and nothing
happens, or it is not and the command does it. -/
theorem unlessFaulted_next {s t : State} {k : Result} :
    unlessFaulted s k = .next t ↔ (s.faulted ∧ t = s) ∨ (s.cause = 0 ∧ k = .next t) := by
  unfold unlessFaulted
  split
  · next h =>
    constructor
    · rintro ⟨⟩
      exact .inl ⟨h, rfl⟩
    · rintro (⟨-, rfl⟩ | ⟨h0, -⟩)
      · rfl
      · exact absurd h0 h
  · next h =>
    have h0 : s.cause = 0 := not_not.1 h
    constructor
    · exact fun hk => .inr ⟨h0, hk⟩
    · rintro (⟨hf, -⟩ | ⟨-, hk⟩)
      · exact absurd hf h
      · exact hk

/-! The check of `INITED` (R164). -/

theorem whenInited_of_inited {i : Instr} {s : State} (h : s.inited = true) (k : Result) : whenInited i s k = k := by
  simp [whenInited, h]

theorem whenInited_of_not {i : Instr} {s : State} (h : s.inited = false) (k : Result) :
    whenInited i s k = .next (raiseBy .notInitialized i s) := by
  simp [whenInited, h]

/-- A command that needs `INIT` answers a next state: either it faults, or it does its work. -/
theorem whenInited_next {i : Instr} {s t : State} {k : Result} :
    whenInited i s k = .next t ↔
      (s.inited = false ∧ t = raiseBy .notInitialized i s) ∨ (s.inited = true ∧ k = .next t) := by
  unfold whenInited
  split
  · next h => simp [h]
  · next h => simp [Bool.eq_false_iff.2 h, eq_comm]

/-! Accesses that may be refused. -/

@[simp] theorem settle_ok (s : State) : settle (.ok s) = .next s := rfl

@[simp] theorem settle_error (f : Fault) : settle (.error f) = .fault f := rfl

theorem settle_next {r : Except Fault State} {t : State} : settle r = .next t ↔ r = .ok t := by
  cases r <;> simp [settle]

/-! Fault entry (R165). -/

@[simp] theorem raise_cause (c : Cause) (info : Word) (s : State) : (raise c info s).cause = c.code := by
  simp [State.cause]

@[simp] theorem raise_inited (c : Cause) (info : Word) (s : State) : (raise c info s).inited = s.inited := by
  simp [State.inited]

@[simp] theorem raiseBy_cause (c : Cause) (i : Instr) (s : State) : (raiseBy c i s).cause = c.code := by
  simp [State.cause]

@[simp] theorem raiseBy_inited (c : Cause) (i : Instr) (s : State) : (raiseBy c i s).inited = s.inited := by
  simp [State.inited]

@[simp] theorem initWith_cause (bytes : List Byte) (s : State) : (initWith bytes s).cause = s.cause := by
  simp [State.cause]

@[simp] theorem initWith_inited (bytes : List Byte) (s : State) : (initWith bytes s).inited = true := by
  simp [State.inited]

/-! Control registers and matrices by number (R27, R72). -/

/-- A read of a control register: it is defined for the numbers 0 to 10. -/
theorem readCR_isSome_iff (s : State) (cr : Fin 16) : (readCR s cr).isSome = true ↔ cr.val ≤ 10 := by
  fin_cases cr <;> simp [readCR]

/-- A write of a control register: it is defined for the numbers 0 to 5. -/
theorem writeCR_isSome_iff (s : State) (cr : Fin 16) (imm : Word) : (writeCR s cr imm).isSome = true ↔ cr.val ≤ 5 := by
  fin_cases cr <;> simp [writeCR]

/-- A write of a control register changes one of `CTR`, `LEN`, `POS` and nothing else. -/
theorem writeCR_some {s t : State} {cr : Fin 16} {imm : Word} (h : writeCR s cr imm = some t) :
    t = { s with ctr := t.ctr } ∨ t = { s with len := t.len } ∨ t = { s with pos := t.pos } := by
  unfold writeCR at h
  split at h
  · cases h; exact .inl rfl
  · cases h; exact .inl rfl
  · cases h; exact .inr (.inl rfl)
  · cases h; exact .inr (.inl rfl)
  · cases h; exact .inr (.inr rfl)
  · cases h; exact .inr (.inr rfl)
  · cases h

/-- A selector of `RDM` names a matrix for 0, 1 and 2. -/
theorem selectMatrix_isSome_iff (s : State) (sel : Fin 16) : (selectMatrix s sel).isSome = true ↔ sel.val ≤ 2 := by
  fin_cases sel <;> simp [selectMatrix]

/-- The length check of `XORK` (R141). -/
theorem lengthAllowed_iff (s : State) (m : Word) :
    lengthAllowed s m = true ↔ m.toNat ≤ 64 ∧ s.pos.toNat + m.toNat ≤ s.len.toNat := by
  simp only [lengthAllowed, Bool.and_eq_true, decide_eq_true_eq]
  rfl

end Sys2Proof.Machine
end

