-- ==== Sys2Proof/Laws/Cipher.lean ====
section
/-! SUPPORT. The byte loop, one block, the blocks of the main loop and the whole buffer: what each can do, and when it gets through. -/

namespace Sys2Proof.Machine

/-- The byte loop when it gets through: each byte of the range is combined, every other address is as it was, the canonical
form is kept. -/
theorem combineBytes_ok {inp : Memory} {room : Nat} {o : WordMatrix} {pos m : Nat} {out out' : Memory}
    (h : combineBytes inp room o pos m out = .ok out') :
    (∀ k < m, pos + k < room ∧ ∃ v, Memory.read inp (pos + k) = some v ∧
        Memory.read out' (pos + k) = some (xor8 v (ks o k))) ∧
      (∀ a, a < pos ∨ pos + m ≤ a → Memory.read out' a = Memory.read out a) ∧
      (Memory.wf out = true → pos + m ≤ 2 ^ 64 → Memory.wf out' = true) := by
  induction m generalizing out' with
  | zero =>
    simp only [combineBytes, Except.ok.injEq] at h
    subst h
    exact ⟨fun k hk => absurd hk (by omega), fun _ _ => rfl, fun hw _ => hw⟩
  | succ m ih =>
    simp only [combineBytes] at h
    split at h
    · cases h
    · next mid hmid =>
      split at h
      · cases h
      · next v hv =>
        obtain ⟨hroom, rfl⟩ := (memWrite_ok_iff ..).1 h
        rw [memRead_ok_iff] at hv
        obtain ⟨h1, h2, h3⟩ := ih hmid
        refine ⟨?_, ?_, ?_⟩
        · intro k hk
          by_cases hkm : k = m
          · subst hkm
            exact ⟨hroom, v, hv, by simp⟩
          · obtain ⟨hr, u, hu, hw⟩ := h1 k (by omega)
            exact ⟨hr, u, hu, by rw [Memory.read_write_other _ _ (by omega)]; exact hw⟩
        · intro a ha
          rw [Memory.read_write_other _ _ (by omega)]
          exact h2 a (by omega)
        · intro hw hb
          exact Memory.wf_write (h3 hw (by omega)) (by omega) _

/-- The byte loop gets through when IN holds the bytes and OUT has room for them. -/
theorem combineBytes_total {inp : Memory} {room : Nat} (o : WordMatrix) {pos m : Nat} (out : Memory)
    (hin : ∀ k < m, (Memory.read inp (pos + k)).isSome = true ∧ pos + k < room) :
    ∃ out', combineBytes inp room o pos m out = .ok out' := by
  induction m with
  | zero => exact ⟨out, rfl⟩
  | succ m ih =>
    obtain ⟨mid, hmid⟩ := ih (fun k hk => hin k (by omega))
    obtain ⟨hsome, hroom⟩ := hin m (by omega)
    obtain ⟨v, hv⟩ := Option.isSome_iff_exists.1 hsome
    have hv' : memRead .inp inp (pos + m) = .ok v := (memRead_ok_iff ..).2 hv
    exact ⟨Memory.write mid (pos + m) (xor8 v (ks o m)), by simp [combineBytes, hmid, hv', memWrite_ok_iff, hroom]⟩

/-- The byte loop, when an access is refused, names an IN address of the range that holds no byte or an OUT address of the range
beyond the room. -/
theorem combineBytes_error {inp : Memory} {room : Nat} {o : WordMatrix} {pos m : Nat} {out : Memory} {f : Fault}
    (h : combineBytes inp room o pos m out = .error f) :
    ∃ k < m, (f = .accessNotAdmitted .inp (pos + k) ∧ Memory.read inp (pos + k) = none) ∨
      (f = .accessNotAdmitted .out (pos + k) ∧ room ≤ pos + k) := by
  induction m with
  | zero => cases h
  | succ m ih =>
    simp only [combineBytes] at h
    split at h
    · next f' hf' =>
      cases h
      obtain ⟨k, hk, h⟩ := ih hf'
      exact ⟨k, by omega, h⟩
    · refine ⟨m, by omega, ?_⟩
      split at h
      · next f' hf' =>
        cases h
        unfold memRead at hf'
        split at hf'
        · cases hf'
        · next hn => cases hf'; exact .inl ⟨rfl, hn⟩
      · unfold memWrite at h
        split at h
        · cases h
        · cases h; exact .inr ⟨rfl, by omega⟩

/-- `XORK` past its checks, when it gets through, writes OUT by the byte loop, advances `POS` and does nothing else. -/
theorem xorBytes_ok {m : Nat} {s t : State} (h : xorBytes m s = .ok t) :
    ∃ out', combineBytes s.inp s.outRoom s.o s.pos.toNat m s.out = .ok out' ∧
      t = { s with out := out', pos := s.pos + BitVec.ofNat 64 m } := by
  unfold xorBytes at h
  split at h
  · cases h
  · next out' h' =>
    cases h
    exact ⟨out', h', rfl⟩

/-- One turn of the main loop, when it gets through: the block of the current counter, its 64 bytes, the counter advanced. -/
theorem combineBlock_ok {s t : State} (h : combineBlock s = .ok t) :
    ∃ out', combineBytes s.inp s.outRoom (makeBlock s).o s.pos.toNat 64 s.out = .ok out' ∧
      t = { makeBlock s with out := out', pos := s.pos + 64, ctr := s.ctr + 1 } := by
  unfold combineBlock at h
  split at h
  · cases h
  · next u hu =>
    obtain ⟨out', h1, rfl⟩ := xorBytes_ok hu
    cases h
    exact ⟨out', h1, rfl⟩

/-- What the main loop never touches. -/
theorem combineBlocks_frame {n : Nat} {s t : State} (h : combineBlocks n s = .ok t) :
    t = { s with x := t.x, w := t.w, o := t.o, ctr := t.ctr, pos := t.pos, out := t.out } := by
  induction n generalizing t with
  | zero => cases h; rfl
  | succ n ih =>
    simp only [combineBlocks] at h
    split at h
    · cases h
    · next u hu =>
      obtain ⟨out', -, rfl⟩ := combineBlock_ok h
      rw [ih hu]
      rfl

/-- What `COMBINE` never touches. -/
theorem combineBuffer_frame {n : Nat} {s t : State} (h : combineBuffer n s = .ok t) :
    t = { s with x := t.x, w := t.w, o := t.o, ctr := t.ctr, pos := t.pos, out := t.out } := by
  unfold combineBuffer at h
  split at h
  · cases h
  · next u hu =>
    have hf := combineBlocks_frame hu
    unfold combineTail at h
    split at h
    · cases h
      rw [hf]
    · obtain ⟨out', -, rfl⟩ := xorBytes_ok h
      rw [hf]
      rfl

/-- The initial matrix of the block with the counter `c`: all that a block is computed from (R130). -/
def blockInput (s : State) (c : DWord) : WordMatrix :=
  withCounter s.cfg.counterEncoding c s.x

/-- The output matrix of the block with the counter `c`. -/
def blockOutput (s : State) (c : DWord) : WordMatrix :=
  feedForward (permute (blockInput s c)) (blockInput s c)

/-- `X`, `W` and `O` are those of the block with the counter `c`. -/
def HoldsBlock (t s : State) (c : DWord) : Prop :=
  t.x = blockInput s c ∧ t.w = permute (blockInput s c) ∧ t.o = blockOutput s c

/-- Writing the counter twice leaves the second value. -/
theorem withCounter_withCounter (e : CounterEncoding) (c d : DWord) (x : WordMatrix) :
    withCounter e c (withCounter e d x) = withCounter e c x :=
  withCounter_congr e c fun i h8 h9 => by simp [cellOf_withCounter, h8, h9]

/-- A block is computed from the counter, its encoding and the fourteen other cells of `X`. -/
theorem blockInput_congr {s t : State} (c : DWord) (he : t.cfg = s.cfg)
    (hx : ∀ i : Cell, i ≠ 8 → i ≠ 9 → cellOf t.x i = cellOf s.x i) : blockInput t c = blockInput s c := by
  unfold blockInput
  rw [he]
  exact withCounter_congr _ _ hx

theorem blockOutput_congr {s t : State} {c : DWord} (h : blockInput t c = blockInput s c) :
    blockOutput t c = blockOutput s c := by
  unfold blockOutput
  rw [h]

/-- What the blocks of the main loop do when they get through (R143): every byte of the range is combined with the keystream of
the block it lies in, the counter and `POS` advance, and `X`, `W`, `O` are those of the last block. -/
theorem combineBlocks_ok {n : Nat} {s t : State} (h : combineBlocks n s = .ok t) (hb : s.pos.toNat + 64 * n < 2 ^ 64) :
    t.ctr = s.ctr + BitVec.ofNat 64 n ∧ t.pos.toNat = s.pos.toNat + 64 * n ∧ (∀ c, blockInput t c = blockInput s c) ∧
      (∀ k < 64 * n, s.pos.toNat + k < s.outRoom ∧ ∃ v, Memory.read s.inp (s.pos.toNat + k) = some v ∧
        Memory.read t.out (s.pos.toNat + k) =
          some (xor8 v (ks (blockOutput s (s.ctr + BitVec.ofNat 64 (k / 64))) (k % 64)))) ∧
      (∀ a, a < s.pos.toNat ∨ s.pos.toNat + 64 * n ≤ a → Memory.read t.out a = Memory.read s.out a) ∧
      (Memory.wf s.out = true → Memory.wf t.out = true) ∧
      (n = 0 → t = s) ∧ (∀ m, n = m + 1 → HoldsBlock t s (s.ctr + BitVec.ofNat 64 m)) := by
  induction n generalizing t with
  | zero =>
    cases h
    simp
  | succ n ih =>
    simp only [combineBlocks] at h
    split at h
    · cases h
    · next u hu =>
      obtain ⟨hc, hp, hx, hin, hout, hwf, h0, hm⟩ := ih hu (by omega)
      obtain ⟨out', hby, rfl⟩ := combineBlock_ok h
      have hf := combineBlocks_frame hu
      have hui : u.inp = s.inp := by rw [hf]
      have hur : u.outRoom = s.outRoom := by rw [hf]
      have huo : (makeBlock u).o = blockOutput s u.ctr := blockOutput_congr (hx u.ctr)
      rw [hui, hur, huo, hc, hp] at hby
      obtain ⟨k1, k2, k3⟩ := combineBytes_ok hby
      refine ⟨?_, ?_, ?_, ?_, ?_, ?_, ?_, ?_⟩
      · show u.ctr + 1 = _
        rw [hc]
        apply BitVec.eq_of_toNat_eq
        simp [BitVec.toNat_add, Nat.add_assoc]
      · show (u.pos + 64).toNat = _
        rw [BitVec.toNat_add, hp]
        show (s.pos.toNat + 64 * n + 64) % 2 ^ 64 = _
        omega
      · intro c
        rw [← hx c]
        exact withCounter_withCounter _ _ _ _
      · intro k hk
        by_cases hkn : k < 64 * n
        · obtain ⟨h1, v, h2, h3⟩ := hin k hkn
          refine ⟨h1, v, h2, ?_⟩
          exact (k2 _ (.inl (by omega))).trans h3
        · obtain ⟨h1, v, h2, h3⟩ := k1 (k - 64 * n) (by omega)
          have e1 : s.pos.toNat + 64 * n + (k - 64 * n) = s.pos.toNat + k := by omega
          have e2 : k / 64 = n := by omega
          have e3 : k % 64 = k - 64 * n := by omega
          rw [e1] at h1 h2 h3
          rw [e2, e3]
          exact ⟨h1, v, h2, h3⟩
      · intro a ha
        exact (k2 a (by omega)).trans (hout a (by omega))
      · intro hw
        exact k3 (hwf hw) (by omega)
      · intro h; omega
      · intro m hmn
        obtain rfl : n = m := by omega
        rw [← hc]
        have := hx u.ctr
        exact ⟨this, by rw [← this]; rfl, blockOutput_congr this⟩

/-- What `COMBINE` does past its check when it gets through (R143, R144). -/
theorem combineBuffer_ok {n : Nat} {s t : State} (h : combineBuffer n s = .ok t) (hn : n < 2 ^ 64) :
    t.ctr = s.ctr + BitVec.ofNat 64 (n / 64) ∧ t.pos.toNat = n ∧ (∀ c, blockInput t c = blockInput s c) ∧
      (∀ j < n, j < s.outRoom ∧ ∃ v, Memory.read s.inp j = some v ∧
        Memory.read t.out j = some (xor8 v (ks (blockOutput s (s.ctr + BitVec.ofNat 64 (j / 64))) (j % 64)))) ∧
      (∀ a, n ≤ a → Memory.read t.out a = Memory.read s.out a) ∧ (Memory.wf s.out = true → Memory.wf t.out = true) ∧
      (n = 0 → t = { s with pos := 0 }) ∧ (n ≠ 0 → HoldsBlock t s (s.ctr + BitVec.ofNat 64 ((n - 1) / 64))) := by
  unfold combineBuffer at h
  split at h
  · cases h
  · next u hu =>
    have hz : ({ s with pos := 0 } : State).pos.toNat = 0 := rfl
    have hbb : Config.blockBytes = 64 := rfl
    rw [hbb] at hu
    obtain ⟨hc, hp, hx, hin, hout, hwf, h0, hm⟩ := combineBlocks_ok hu (by rw [hz]; omega)
    rw [hz] at hp hin hout
    simp only [Nat.zero_add] at hp hin hout
    replace hx : ∀ c, blockInput u c = blockInput s c := hx
    replace hc : u.ctr = s.ctr + BitVec.ofNat 64 (n / 64) := hc
    replace hwf : Memory.wf s.out = true → Memory.wf u.out = true := hwf
    unfold combineTail at h
    rw [hbb] at h
    split at h
    · next hr =>
      cases h
      refine ⟨hc, by omega, hx, fun j hj => hin j (by omega), fun a ha => hout a (by omega), hwf, ?_, ?_⟩
      · rintro rfl
        exact h0 rfl
      · intro hn0
        have e : n / 64 = (n - 1) / 64 + 1 := by omega
        exact hm _ e
    · next hr =>
      obtain ⟨out', hby, rfl⟩ := xorBytes_ok h
      have hf := combineBlocks_frame hu
      have hui : u.inp = s.inp := by rw [hf]
      have hur : u.outRoom = s.outRoom := by rw [hf]
      have huo : (makeBlock u).o = blockOutput s u.ctr := blockOutput_congr (hx u.ctr)
      simp only [makeBlock_inp, makeBlock_outRoom, makeBlock_pos, makeBlock_out] at hby
      rw [hui, hur, huo, hc, hp] at hby
      obtain ⟨k1, k2, k3⟩ := combineBytes_ok hby
      refine ⟨hc, ?_, ?_, ?_, ?_, ?_, ?_, ?_⟩
      · show (u.pos + BitVec.ofNat 64 (n % 64)).toNat = n
        rw [BitVec.toNat_add, hp, BitVec.toNat_ofNat]
        omega
      · intro c
        rw [← hx c]
        exact withCounter_withCounter _ _ _ _
      · intro j hj
        by_cases hjn : j < 64 * (n / 64)
        · obtain ⟨h1, v, h2, h3⟩ := hin j hjn
          refine ⟨h1, v, h2, ?_⟩
          exact (k2 _ (.inl (by omega))).trans h3
        · obtain ⟨h1, v, h2, h3⟩ := k1 (j - 64 * (n / 64)) (by omega)
          have e1 : 64 * (n / 64) + (j - 64 * (n / 64)) = j := by omega
          have e2 : j / 64 = n / 64 := by omega
          have e3 : j % 64 = j - 64 * (n / 64) := by omega
          rw [e1] at h1 h2 h3
          rw [e2, e3]
          exact ⟨h1, v, h2, h3⟩
      · intro a ha
        exact (k2 a (by omega)).trans (hout a (by omega))
      · intro hw
        exact k3 (hwf hw) (by omega)
      · intro h; omega
      · intro hn0
        have e : (n - 1) / 64 = n / 64 := by omega
        rw [e, ← hc]
        have := hx u.ctr
        exact ⟨this, by rw [← this]; rfl, blockOutput_congr this⟩

/-- `XORK` past its checks gets through when IN holds the bytes and OUT has room for them. -/
theorem xorBytes_total {m : Nat} {s : State}
    (hin : ∀ k < m, (Memory.read s.inp (s.pos.toNat + k)).isSome = true ∧ s.pos.toNat + k < s.outRoom) :
    ∃ t, xorBytes m s = .ok t := by
  obtain ⟨out', h⟩ := combineBytes_total s.o s.out hin
  exact ⟨{ s with out := out', pos := s.pos + BitVec.ofNat 64 m }, by simp only [xorBytes, h]⟩

/-- The blocks get through when IN holds their bytes and OUT has room for them. -/
theorem combineBlocks_total {n : Nat} {s : State} (hb : s.pos.toNat + 64 * n < 2 ^ 64)
    (hin : ∀ k < 64 * n, (Memory.read s.inp (s.pos.toNat + k)).isSome = true ∧ s.pos.toNat + k < s.outRoom) :
    ∃ t, combineBlocks n s = .ok t := by
  induction n with
  | zero => exact ⟨s, rfl⟩
  | succ n ih =>
    have ⟨u, hu⟩ := ih (by omega) (fun k hk => hin k (by omega))
    obtain ⟨-, hp, -⟩ := combineBlocks_ok hu (by omega)
    have hf := combineBlocks_frame hu
    have hui : u.inp = s.inp := by rw [hf]
    have hur : u.outRoom = s.outRoom := by rw [hf]
    have hz : ∃ t, xorBytes Config.blockBytes (makeBlock u) = .ok t := by
      apply xorBytes_total
      intro k hk
      have hk : k < 64 := hk
      rw [makeBlock_inp, makeBlock_outRoom, makeBlock_pos, hui, hur, hp, Nat.add_assoc]
      apply hin
      omega
    obtain ⟨t, ht⟩ := hz
    refine ⟨incCounter t, ?_⟩
    unfold combineBlocks
    rw [hu]
    unfold combineBlock
    dsimp only
    rw [ht]

/-- `COMBINE` gets through when IN holds the buffer and OUT has room for it. -/
theorem combineBuffer_total {n : Nat} {s : State} (hn : n < 2 ^ 64)
    (hin : ∀ j < n, (Memory.read s.inp j).isSome = true ∧ j < s.outRoom) : ∃ t, combineBuffer n s = .ok t := by
  have hbb : Config.blockBytes = 64 := rfl
  have hz : ({ s with pos := 0 } : State).pos.toNat = 0 := rfl
  obtain ⟨u, hu⟩ := combineBlocks_total (n := n / 64) (s := { s with pos := 0 }) (by rw [hz]; omega) (by
    intro k hk
    rw [hz, Nat.zero_add]
    exact hin k (by omega))
  obtain ⟨-, hp, -⟩ := combineBlocks_ok hu (by rw [hz]; omega)
  have hf := combineBlocks_frame hu
  have hui : u.inp = s.inp := by rw [hf]
  have hur : u.outRoom = s.outRoom := by rw [hf]
  rw [hz, Nat.zero_add] at hp
  by_cases hr : n % 64 = 0
  · exact ⟨u, by simp only [combineBuffer, hbb, hu, combineTail, hr, if_true]⟩
  · obtain ⟨t, ht⟩ := xorBytes_total (m := n % 64) (s := makeBlock u) (by
      intro k hk
      simp only [makeBlock_inp, makeBlock_outRoom, makeBlock_pos]
      rw [hui, hur, hp]
      exact hin _ (by omega))
    exact ⟨t, by simp only [combineBuffer, hbb, hu, combineTail, hr, if_false, ht]⟩

/-- When an access of `XORK` is refused, it names an IN address of the range that holds no byte or an OUT address of the range
beyond the room. -/
theorem xorBytes_error {m : Nat} {s : State} {f : Fault} (h : xorBytes m s = .error f) :
    ∃ k < m, (f = .accessNotAdmitted .inp (s.pos.toNat + k) ∧ Memory.read s.inp (s.pos.toNat + k) = none) ∨
      (f = .accessNotAdmitted .out (s.pos.toNat + k) ∧ s.outRoom ≤ s.pos.toNat + k) := by
  unfold xorBytes at h
  split at h
  · next f' hf =>
    cases h
    exact combineBytes_error hf
  · cases h

/-- When an access of the blocks is refused, it names an IN address of the range that holds no byte or an OUT address of the range
beyond the room. -/
theorem combineBlocks_error {n : Nat} {s : State} {f : Fault} (hb : s.pos.toNat + 64 * n < 2 ^ 64)
    (h : combineBlocks n s = .error f) :
    ∃ k < 64 * n, (f = .accessNotAdmitted .inp (s.pos.toNat + k) ∧ Memory.read s.inp (s.pos.toNat + k) = none) ∨
      (f = .accessNotAdmitted .out (s.pos.toNat + k) ∧ s.outRoom ≤ s.pos.toNat + k) := by
  induction n with
  | zero => cases h
  | succ n ih =>
    simp only [combineBlocks] at h
    split at h
    · next f' hf =>
      cases h
      obtain ⟨k, hk, h⟩ := ih (by omega) hf
      exact ⟨k, by omega, h⟩
    · next u hu =>
      obtain ⟨-, hp, -⟩ := combineBlocks_ok hu (by omega)
      have hf := combineBlocks_frame hu
      have hui : u.inp = s.inp := by rw [hf]
      have hur : u.outRoom = s.outRoom := by rw [hf]
      unfold combineBlock at h
      split at h
      · next f' hf' =>
        cases h
        have hbb : Config.blockBytes = 64 := rfl
        rw [hbb] at hf'
        obtain ⟨k, hk, h⟩ := xorBytes_error hf'
        simp only [makeBlock_inp, makeBlock_outRoom, makeBlock_pos] at h
        rw [hui, hur, hp, Nat.add_assoc] at h
        exact ⟨64 * n + k, by omega, h⟩
      · cases h

/-- When an access of `COMBINE` is refused, it names an IN address of the buffer that holds no byte or an OUT address of the
buffer beyond the room. -/
theorem combineBuffer_error {n : Nat} {s : State} {f : Fault} (hn : n < 2 ^ 64) (h : combineBuffer n s = .error f) :
    ∃ j < n, (f = .accessNotAdmitted .inp j ∧ Memory.read s.inp j = none) ∨
      (f = .accessNotAdmitted .out j ∧ s.outRoom ≤ j) := by
  have hbb : Config.blockBytes = 64 := rfl
  have hz : ({ s with pos := 0 } : State).pos.toNat = 0 := rfl
  unfold combineBuffer at h
  rw [hbb] at h
  split at h
  · next f' hf =>
    cases h
    obtain ⟨k, hk, h⟩ := combineBlocks_error (by rw [hz]; omega) hf
    rw [hz, Nat.zero_add] at h
    exact ⟨k, by omega, h⟩
  · next u hu =>
    obtain ⟨-, hp, -⟩ := combineBlocks_ok hu (by rw [hz]; omega)
    have hf := combineBlocks_frame hu
    have hui : u.inp = s.inp := by rw [hf]
    have hur : u.outRoom = s.outRoom := by rw [hf]
    rw [hz, Nat.zero_add] at hp
    unfold combineTail at h
    split at h
    · cases h
    · obtain ⟨k, hk, h⟩ := xorBytes_error h
      simp only [makeBlock_inp, makeBlock_outRoom, makeBlock_pos] at h
      rw [hui, hur, hp] at h
      exact ⟨64 * (n / 64) + k, by omega, h⟩

end Sys2Proof.Machine
end

