-- ==== Sys2Proof/Laws/Encoding.lean ====
section
/-! SUPPORT. Command words field by field: a word is its seven fields, a mask works field by field, and the masked comparison of
the decoder says which fields are zero (spec/30_encoding.md R70, R71, R74). -/

namespace Sys2Proof

/-- A 64-bit word from its seven fields, `rsv` among them. -/
def pack (op rsv : BitVec 8) (a b c d : BitVec 4) (imm : Word) : CommandWord :=
  op ++ rsv ++ a ++ b ++ c ++ d ++ imm

/-- Bit `k` of a word is a bit of the field it lies in. -/
theorem getLsbD_pack (op rsv : BitVec 8) (a b c d : BitVec 4) (imm : Word) (k : Nat) :
    (pack op rsv a b c d imm).getLsbD k =
      if k < 32 then imm.getLsbD k else if k < 36 then d.getLsbD (k - 32) else if k < 40 then c.getLsbD (k - 36)
      else if k < 44 then b.getLsbD (k - 40) else if k < 48 then a.getLsbD (k - 44)
      else if k < 56 then rsv.getLsbD (k - 48) else op.getLsbD (k - 56) := by
  simp only [pack, BitVec.getLsbD_append, -Nat.reduceAdd]
  simp only [Nat.sub_sub, Nat.reduceAdd]
  split_ifs <;> first | rfl | (exfalso; omega)

@[simp] theorem opField_pack (op rsv : BitVec 8) (a b c d : BitVec 4) (imm : Word) :
    opField (pack op rsv a b c d imm) = op := by
  apply BitVec.eq_of_getLsbD_eq
  intro i hi
  simp (disch := omega) only [opField, BitVec.getLsbD_extractLsb', getLsbD_pack, hi, decide_true, Bool.true_and, if_neg,
    Nat.add_sub_cancel_left]

@[simp] theorem rsvField_pack (op rsv : BitVec 8) (a b c d : BitVec 4) (imm : Word) :
    rsvField (pack op rsv a b c d imm) = rsv := by
  apply BitVec.eq_of_getLsbD_eq
  intro i hi
  simp (disch := omega) only [rsvField, BitVec.getLsbD_extractLsb', getLsbD_pack, hi, decide_true, Bool.true_and, if_neg,
    if_pos, Nat.add_sub_cancel_left]

@[simp] theorem fieldsOf_pack (op rsv : BitVec 8) (a b c d : BitVec 4) (imm : Word) :
    fieldsOf (pack op rsv a b c d imm) = { a := a, b := b, c := c, d := d, imm := imm } := by
  simp only [fieldsOf, Fields.mk.injEq]
  refine ⟨?_, ?_, ?_, ?_, ?_⟩ <;>
    (apply BitVec.eq_of_getLsbD_eq
     intro i hi
     simp (disch := omega) only [BitVec.getLsbD_extractLsb', getLsbD_pack, hi, decide_true, Bool.true_and, if_neg, if_pos,
       if_true, Nat.add_sub_cancel_left, Nat.zero_add])

/-- The upper half of a word is its six fields above the immediate. -/
theorem upperHalf_pack (op rsv : BitVec 8) (a b c d : BitVec 4) (imm : Word) :
    upperHalf (pack op rsv a b c d imm) = op ++ rsv ++ a ++ b ++ c ++ d := by
  apply BitVec.eq_of_getLsbD_eq
  intro i hi
  simp only [upperHalf, BitVec.getLsbD_extractLsb', getLsbD_pack, hi, decide_true, Bool.true_and, BitVec.getLsbD_append,
    -Nat.reduceAdd]
  simp only [Nat.sub_sub, Nat.reduceAdd]
  split_ifs <;> first | (exfalso; omega) | (congr 1; omega)

/-- A word is its seven fields. -/
theorem pack_fields (cw : CommandWord) :
    pack (opField cw) (rsvField cw) (fieldsOf cw).a (fieldsOf cw).b (fieldsOf cw).c (fieldsOf cw).d (fieldsOf cw).imm = cw := by
  apply BitVec.eq_of_getLsbD_eq
  intro k hk
  simp only [getLsbD_pack, fieldsOf, opField, rsvField, BitVec.getLsbD_extractLsb']
  split_ifs with h1 h2 h3 h4 h5 h6
  · simp [h1]
  · simp [show k - 32 < 4 by omega, show 32 + (k - 32) = k by omega]
  · simp [show k - 36 < 4 by omega, show 36 + (k - 36) = k by omega]
  · simp [show k - 40 < 4 by omega, show 40 + (k - 40) = k by omega]
  · simp [show k - 44 < 4 by omega, show 44 + (k - 44) = k by omega]
  · simp [show k - 48 < 8 by omega, show 48 + (k - 48) = k by omega]
  · simp [show k - 56 < 8 by omega, show 56 + (k - 56) = k by omega]

/-- Two words are the same when their fields are. -/
theorem pack_inj {op rsv op' rsv' : BitVec 8} {a b c d a' b' c' d' : BitVec 4} {imm imm' : Word} :
    pack op rsv a b c d imm = pack op' rsv' a' b' c' d' imm' ↔
      op = op' ∧ rsv = rsv' ∧ a = a' ∧ b = b' ∧ c = c' ∧ d = d' ∧ imm = imm' := by
  constructor
  · intro h
    have h1 := congrArg opField h
    have h2 := congrArg rsvField h
    have h3 := congrArg fieldsOf h
    simp only [opField_pack, rsvField_pack, fieldsOf_pack, Fields.mk.injEq] at h1 h2 h3
    exact ⟨h1, h2, h3⟩
  · rintro ⟨rfl, rfl, rfl, rfl, rfl, rfl, rfl⟩
    rfl

/-- A mask works field by field. -/
theorem pack_and (op rsv op' rsv' : BitVec 8) (a b c d a' b' c' d' : BitVec 4) (imm imm' : Word) :
    pack op rsv a b c d imm &&& pack op' rsv' a' b' c' d' imm' =
      pack (op &&& op') (rsv &&& rsv') (a &&& a') (b &&& b') (c &&& c') (d &&& d') (imm &&& imm') := by
  apply BitVec.eq_of_getLsbD_eq
  intro k _
  simp only [BitVec.getLsbD_and, getLsbD_pack]
  split_ifs <;> rfl

/-- The fields a format does not use are zero (R71). -/
def Format.unusedZero (f : Format) (x : Fields) : Prop :=
  match f with
  | .n => x.a = 0 ∧ x.b = 0 ∧ x.c = 0 ∧ x.d = 0 ∧ x.imm = 0
  | .q => x.imm = 0
  | .ai => x.b = 0 ∧ x.c = 0 ∧ x.d = 0
  | .ab => x.c = 0 ∧ x.d = 0 ∧ x.imm = 0
  | .a => x.b = 0 ∧ x.c = 0 ∧ x.d = 0 ∧ x.imm = 0
  | .i => x.a = 0 ∧ x.b = 0 ∧ x.c = 0 ∧ x.d = 0

theorem matchWord_eq_pack (o : Op) : o.matchWord = pack o.code 0 0 0 0 0 0 := by
  cases o <;> decide

/-- What the decoder's masked comparison says: the opcode is the row's, and `rsv` and the unused fields are zero (R74 (2)). -/
theorem masked_iff (cw : CommandWord) (o : Op) (f : Format) :
    cw &&& f.mask = o.matchWord ↔ opField cw = o.code ∧ rsvField cw = 0 ∧ f.unusedZero (fieldsOf cw) := by
  have h4 : ∀ x : BitVec 4, x &&& 15#4 = x := fun x => BitVec.and_allOnes
  have h8 : ∀ x : BitVec 8, x &&& 255#8 = x := fun x => BitVec.and_allOnes
  have h32 : ∀ x : Word, x &&& 4294967295#32 = x := fun x => BitVec.and_allOnes
  have hn : Format.mask .n = pack 0xFF 0xFF 15 15 15 15 0xFFFFFFFF := by decide
  have hq : Format.mask .q = pack 0xFF 0xFF 0 0 0 0 0xFFFFFFFF := by decide
  have hai : Format.mask .ai = pack 0xFF 0xFF 0 15 15 15 0 := by decide
  have hab : Format.mask .ab = pack 0xFF 0xFF 0 0 15 15 0xFFFFFFFF := by decide
  have ha : Format.mask .a = pack 0xFF 0xFF 0 15 15 15 0xFFFFFFFF := by decide
  have hi : Format.mask .i = pack 0xFF 0xFF 15 15 15 15 0 := by decide
  rw [matchWord_eq_pack]
  conv_lhs => rw [← pack_fields cw]
  cases f
  · rw [hn, pack_and, pack_inj]; simp [h4, h8, h32, Format.unusedZero]
  · rw [hq, pack_and, pack_inj]; simp [h8, h32, Format.unusedZero]
  · rw [hai, pack_and, pack_inj]; simp [h4, h8, Format.unusedZero]
  · rw [hab, pack_and, pack_inj]; simp [h4, h8, h32, Format.unusedZero]
  · rw [ha, pack_and, pack_inj]; simp [h4, h8, h32, Format.unusedZero]
  · rw [hi, pack_and, pack_inj]; simp [h4, h8, Format.unusedZero]

theorem encode_eq_pack (i : Instr) :
    encode i = pack i.op.code 0 i.fields.a i.fields.b i.fields.c i.fields.d i.fields.imm := rfl

@[simp] theorem Op.ofCode_code (o : Op) : Op.ofCode o.code = some o := by
  cases o <;> decide

/-- The row found for an opcode has that opcode. -/
theorem Op.code_of_ofCode {op : BitVec 8} {o : Op} (h : Op.ofCode op = some o) : o.code = op := by
  simpa using List.find?_some h

/-- A command is rebuilt from its row and its fields. -/
@[simp] theorem Op.build_fields (i : Instr) : i.op.build i.fields = i := by
  cases i <;> rfl

/-- A command's unused fields are zero. -/
theorem Instr.fields_unusedZero (i : Instr) : i.op.format.unusedZero i.fields := by
  cases i <;> simp [Instr.op, Op.format, Instr.fields, noFields, Format.unusedZero]

end Sys2Proof
end

