-- ==== Sys2Proof/Laws/HostSide.lean ====
section
/-! SUPPORT. What the host's actions can do: a command on drawn bytes, on one storage, and one that reset abandons. -/

namespace Sys2Proof.Machine

/-- While the host writes: the action answers a next state exactly when `run` does on the drawn bytes, and then KEY and IN are as
before it. -/
theorem drawing_next {key inp : Memory} {run : State → Result} {s t : State} :
    drawing key inp run s = .next t ↔
      ∃ u, run { s with key := key, inp := inp } = .next u ∧ t = { u with key := s.key, inp := s.inp } := by
  unfold drawing
  cases run { s with key := key, inp := inp } <;> simp [eq_comm]

/-- On one storage: the action answers a next state exactly when `run` does with OUT holding what IN holds, and then both are what
`run` left in OUT. -/
theorem inOneStorage_next {run : State → Result} {s t : State} :
    inOneStorage run s = .next t ↔ ∃ u, run { s with out := s.inp } = .next u ∧ t = { u with inp := u.out } := by
  unfold inOneStorage
  cases run { s with out := s.inp } <;> simp [eq_comm]

/-- How far an `XORK` whose checks pass has come: its first bytes, or all of them. -/
theorem partWay_xork {m : Word} {s : State} (written : Nat) (hc : s.cause = 0) (hi : s.inited = true)
    (hl : lengthAllowed s m = true) : partWay (.xork m) written s = xorBytes (min written m.toNat) s :=
  if_neg (by rintro (h | h | h); exacts [h hc, h hi, h hl])

/-- How far a `COMBINE` whose checks pass has come: the first bytes of its buffer, or all of them. -/
theorem partWay_combine {s : State} (written : Nat) (hc : s.cause = 0) (hi : s.inited = true) :
    partWay .combine written s = combineBuffer (min written s.len.toNat) s :=
  if_neg (by rintro (h | h); exacts [h hc, h hi])

/-- A command that is part way has changed nothing, or is an `XORK` of an allowed length, or a `COMBINE`. -/
theorem partWay_cases (i : Instr) (written : Nat) (s : State) :
    partWay i written s = .ok s ∨
      (∃ m, i = .xork m ∧ lengthAllowed s m = true ∧ partWay i written s = xorBytes (min written m.toNat) s) ∨
      (i = .combine ∧ partWay i written s = combineBuffer (min written s.len.toNat) s) := by
  cases i with
  | xork m =>
    by_cases h : s.faulted ∨ ¬ s.inited ∨ ¬ lengthAllowed s m
    · exact .inl (if_pos h)
    · exact .inr (.inl ⟨m, rfl, by simpa using fun hl => h (.inr (.inr hl)), if_neg h⟩)
  | combine =>
    by_cases h : s.faulted ∨ ¬ s.inited
    · exact .inl (if_pos h)
    · exact .inr (.inr ⟨rfl, if_neg h⟩)
  | _ => exact .inl rfl

/-- What a command that is part way never touches. -/
theorem partWay_frame {i : Instr} {written : Nat} {s t : State} (h : partWay i written s = .ok t) :
    t = { s with x := t.x, w := t.w, o := t.o, ctr := t.ctr, pos := t.pos, out := t.out } := by
  rcases partWay_cases i written s with h' | ⟨m, -, -, h'⟩ | ⟨-, h'⟩ <;> rw [h'] at h
  · cases h; rfl
  · obtain ⟨out', -, rfl⟩ := xorBytes_ok h
    rfl
  · exact combineBuffer_frame h

/-- A command that is part way keeps the canonical form of OUT. -/
theorem partWay_wf {i : Instr} {written : Nat} {s t : State} (h : partWay i written s = .ok t)
    (hw : Memory.wf s.out = true) : Memory.wf t.out = true := by
  rcases partWay_cases i written s with h' | ⟨m, -, hl, h'⟩ | ⟨-, h'⟩ <;> rw [h'] at h
  · cases h; exact hw
  · obtain ⟨out', hb, rfl⟩ := xorBytes_ok h
    have := (lengthAllowed_iff s m).1 hl
    exact (combineBytes_ok hb).2.2 hw (by omega)
  · exact (combineBuffer_ok h (by omega)).2.2.2.2.2.1 hw

/-- A command that reset abandons, when it gets through, leaves what reset leaves, with the OUT of the command that is part way;
a word the unit does not accept leaves OUT as it was. -/
theorem cutByReset_next {cw : CommandWord} {written : Nat} {s t : State} (h : cutByReset cw written s = .next t) :
    t = resetUnit { s with out := t.out } ∧
      ((∃ why, decode cw = .illegal why) ∧ t.out = s.out ∨
        ∃ i u, decode cw = .command i ∧ partWay i written s = .ok u ∧ t.out = u.out) := by
  unfold cutByReset at h
  split at h
  · next why hd =>
    cases h
    exact ⟨rfl, .inl ⟨⟨why, hd⟩, rfl⟩⟩
  · next i hd =>
    split at h
    · cases h
    · next u hu =>
      cases h
      refine ⟨?_, .inr ⟨i, u, hd, hu, rfl⟩⟩
      rw [partWay_frame hu]
      rfl

end Sys2Proof.Machine
end

