-- ==== Sys2Proof/Laws/PerInstr.lean ====
section
/-! SUPPORT. One law per command, about its encoding: under the mask of its format its command word is its row's `match`
(spec/30_encoding.md R71). -/

namespace Sys2Proof.Laws.WordShape

/-- The fixed bits of the command word are those of the command's row (R71). -/
def Statement (i : Instr) : Prop :=
  encode i &&& i.op.format.mask = i.op.matchWord

/-- The opcode is the row's, and `rsv` and the unused fields are zero. -/
theorem of_fields (i : Instr) : Statement i := by
  refine (masked_iff _ _ _).2 ?_
  rw [encode_eq_pack]
  simpa using Instr.fields_unusedZero i

theorem init (klen : Word) : Statement (.init klen) := of_fields _

theorem wrcr (cr : Fin 16) (imm : Word) : Statement (.wrcr cr imm) := of_fields _

theorem rdcr (cr : Fin 16) : Statement (.rdcr cr) := of_fields _

theorem setw (a : Cell) (imm : Word) : Statement (.setw a imm) := of_fields _

theorem rdm (a : Cell) (sel : Fin 16) : Statement (.rdm a sel) := of_fields _

theorem qr (a b c d : Cell) : Statement (.qr a b c d) := of_fields _

theorem colrnd : Statement .colrnd := of_fields _

theorem rowrnd : Statement .rowrnd := of_fields _

theorem dblrnd : Statement .dblrnd := of_fields _

theorem perm : Statement .perm := of_fields _

theorem ctrw : Statement .ctrw := of_fields _

theorem ldw : Statement .ldw := of_fields _

theorem ffwd : Statement .ffwd := of_fields _

theorem block : Statement .block := of_fields _

theorem ctrinc : Statement .ctrinc := of_fields _

theorem xork (m : Word) : Statement (.xork m) := of_fields _

theorem combine : Statement .combine := of_fields _

end Sys2Proof.Laws.WordShape
end

