-- ==== Sys2Proof/Laws/Run.lean ====
section
/-! SUPPORT. A run step by step, and that no command reads or writes the host's list of actions: executed with another list it
does the same and leaves that list (spec/70_reset_and_hazards.md R194). -/

namespace Sys2Proof.Machine

/-- No step, no change. -/
theorem run_zero (s : State) : Host.Core.run Sys2Proof.core 0 s = .next s := by
  simp only [Host.Core.run]

/-- A run of one step more is that step, then the rest. -/
theorem run_succ (k : Nat) (s : State) :
    Host.Core.run Sys2Proof.core (k + 1) s =
      match step s with
      | .next t => Host.Core.run Sys2Proof.core k t
      | .fault f => .fault f
      | .refused r => .refused r := by
  have h : ∀ r : Result, Sys2Proof.core.step s = r → Host.Core.run Sys2Proof.core (k + 1) s =
      match r with
      | .next t => Host.Core.run Sys2Proof.core k t
      | .fault f => .fault f
      | .refused r => .refused r := by
    intro r hr
    cases r <;> simp only [Host.Core.run, hr]
  exact h _ rfl

/-- An outcome with the given list of actions. -/
def withList (p : List HostEvent) : Result → Result
  | .next t => .next { t with pending := p }
  | .fault f => .fault f
  | .refused r => .refused r

/-- The result of a memory-reading operation with the given list of actions. -/
def withListE (p : List HostEvent) : Except Fault State → Except Fault State
  | .ok t => .ok { t with pending := p }
  | .error f => .error f

theorem unlessFaulted_withList (p : List HostEvent) (s : State) {k k' : Result} (h : k' = withList p k) :
    unlessFaulted { s with pending := p } k' = withList p (unlessFaulted s k) := by
  subst h
  unfold unlessFaulted
  by_cases hf : s.faulted
  · rw [if_pos hf, if_pos (show ({ s with pending := p } : State).faulted from hf)]
    rfl
  · rw [if_neg hf, if_neg (show ¬ ({ s with pending := p } : State).faulted from hf)]

theorem whenInited_withList (p : List HostEvent) (i : Instr) (s : State) {k k' : Result} (h : k' = withList p k) :
    whenInited i { s with pending := p } k' = withList p (whenInited i s k) := by
  subst h
  unfold whenInited
  show (if s.inited then _ else _) = _
  cases s.inited <;> rfl

theorem settle_withList (p : List HostEvent) {k k' : Except Fault State} (h : k' = withListE p k) :
    settle k' = withList p (settle k) := by
  subst h
  cases k <;> rfl

theorem xorBytes_withList (p : List HostEvent) (m : Nat) (s : State) :
    xorBytes m { s with pending := p } = withListE p (xorBytes m s) := by
  unfold xorBytes
  simp only
  cases combineBytes s.inp s.outRoom s.o s.pos.toNat m s.out <;> rfl

theorem combineBlock_withList (p : List HostEvent) (s : State) :
    combineBlock { s with pending := p } = withListE p (combineBlock s) := by
  unfold combineBlock
  have h := xorBytes_withList p Config.blockBytes (makeBlock s)
  change xorBytes Config.blockBytes (makeBlock { s with pending := p }) = _ at h
  rw [h]
  cases xorBytes Config.blockBytes (makeBlock s) <;> rfl

theorem combineBlocks_withList (p : List HostEvent) (n : Nat) (s : State) :
    combineBlocks n { s with pending := p } = withListE p (combineBlocks n s) := by
  induction n with
  | zero => rfl
  | succ n ih =>
    unfold combineBlocks
    rw [ih]
    cases combineBlocks n s with
    | error f => rfl
    | ok t => exact combineBlock_withList p t

theorem combineBuffer_withList (p : List HostEvent) (n : Nat) (s : State) :
    combineBuffer n { s with pending := p } = withListE p (combineBuffer n s) := by
  unfold combineBuffer
  rw [show ({ ({ s with pending := p } : State) with pos := 0 } : State) = { ({ s with pos := 0 } : State) with pending := p }
    from rfl, combineBlocks_withList]
  cases combineBlocks (n / Config.blockBytes) { s with pos := 0 } with
  | error f => rfl
  | ok t =>
    show combineTail _ { t with pending := p } = withListE p (combineTail _ t)
    unfold combineTail
    split
    · rfl
    · exact xorBytes_withList p _ (makeBlock t)

/-- What a command does, and what it leaves, does not depend on what the host does next. -/
theorem exec_withList (i : Instr) (s : State) (p : List HostEvent) :
    exec i { s with pending := p } = withList p (exec i s) := by
  cases i with
  | init klen =>
    refine unlessFaulted_withList p s ?_
    show (if klen.toNat ≠ Config.keyBytes then _ else _) = withList p (if klen.toNat ≠ Config.keyBytes then _ else _)
    split
    · rfl
    · show (match memReadBytes .key s.key 0 Config.keyBytes with | .error f => _ | .ok bytes => _) =
        withList p (match memReadBytes .key s.key 0 Config.keyBytes with | .error f => _ | .ok bytes => _)
      cases memReadBytes .key s.key 0 Config.keyBytes <;> rfl
  | wrcr cr imm => exact unlessFaulted_withList p s (by fin_cases cr <;> rfl)
  | rdcr cr => fin_cases cr <;> first | rfl | exact unlessFaulted_withList p s rfl
  | setw a imm => exact unlessFaulted_withList p s rfl
  | rdm a sel => fin_cases sel <;> first | rfl | exact unlessFaulted_withList p s rfl
  | qr a b c d => exact unlessFaulted_withList p s (by cases distinctCells a b c d <;> rfl)
  | colrnd => exact unlessFaulted_withList p s rfl
  | rowrnd => exact unlessFaulted_withList p s rfl
  | dblrnd => exact unlessFaulted_withList p s rfl
  | perm => exact unlessFaulted_withList p s rfl
  | ctrw => exact unlessFaulted_withList p s (whenInited_withList p _ s rfl)
  | ldw => exact unlessFaulted_withList p s (whenInited_withList p _ s rfl)
  | ffwd => exact unlessFaulted_withList p s (whenInited_withList p _ s rfl)
  | block => exact unlessFaulted_withList p s (whenInited_withList p _ s rfl)
  | ctrinc => exact unlessFaulted_withList p s rfl
  | xork m =>
    refine unlessFaulted_withList p s (whenInited_withList p _ s ?_)
    show (if lengthAllowed s m = true then _ else _) = withList p (if lengthAllowed s m = true then _ else _)
    split
    · exact settle_withList p (xorBytes_withList p _ s)
    · rfl
  | combine => exact unlessFaulted_withList p s (whenInited_withList p _ s (settle_withList p (combineBuffer_withList p _ s)))

end Sys2Proof.Machine
end

