-- ==== Sys2Proof/Tests/Slice0.lean ====
section
/-! SUPPORT. Tests. The expected values are those of spec/95_test_vectors.md, named in each comment (V1 to V60). First the
well-formedness checks and the decoding of words written out from spec/30_encoding.md; then one or two single steps for each
command; then, for each obligation that has hypotheses, states and operands that meet them. -/

namespace Sys2Proof.Tests

open Sys2Proof Sys2Proof.Machine Sys2Proof.Claims

/-! Small states. -/

/-- After reset, with the nonce pair 0, 0 of the test vectors. -/
def fresh : State :=
  { State.reset with cfg := { nonceLo := 0, nonceHi := 0, loadOrder := .little, counterEncoding := .linear } }

/-- `n` equal bytes from an address on. -/
def bytesFrom (addr n : Nat) (v : Byte) : Memory :=
  (List.range n).map fun k => (addr + k, v)

/-- The key of state E: thirty-one bytes 30, then one byte 31. -/
def keyE : Memory :=
  bytesFrom 0 31 0x30 ++ [(31, 0x31)]

/-- The initial matrix of V2. -/
def xE : WordMatrix :=
  #v[0x61707865, 0x30303030, 0x30303030, 0x30303030, 0x30303030, 0x3320646e, 0, 0,
     0, 0, 0x79622d32, 0x30303030, 0x30303030, 0x30303030, 0x31303030, 0x6b206574]

/-- The output matrix of V21. -/
def oV21 : WordMatrix :=
  #v[0xef505208, 0xf5fbd049, 0x88720238, 0x46ad1979, 0x5a9b563c, 0xbbd18435, 0x371cbef7, 0x9effec1e,
     0x25fad567, 0x37523d44, 0xdd36dd6e, 0x8405fcdd, 0x9b586239, 0x00a909f4, 0x108750b4, 0xf8057bac]

/-- State E. -/
def stateE : State :=
  { fresh with x := xE, status := 1, key := keyE }

/-- A unit in the fault state: `INIT 31` from reset (V50 a). -/
def faulty : State :=
  { fresh with status := 0x100, finfo := 0x1F }

/-- A matrix from its first cells, the rest zero. -/
def firstCells (ws : List Word) : WordMatrix :=
  gridOf fun i => ws.getD i.val 0

/-- The state an outcome leads to. -/
def after : Result → Option State
  | .next t => some t
  | .fault _ => none
  | .refused _ => none

/-- The fault an outcome stops with. -/
def stuckAt : Result → Option Fault
  | .next _ => none
  | .fault f => some f
  | .refused _ => none

/-- `STATUS` and `FINFO` after a command. -/
def faultRecord (r : Result) : Option (Word × Word) :=
  (after r).map fun t => (t.status, t.finfo)

theorem next_of_after {r : Result} (h : (after r).isSome = true) : ∃ t, r = .next t := by
  cases r with
  | next t => exact ⟨t, rfl⟩
  | fault f => cases h
  | refused f => cases h

/-! Well-formedness: each check refuses an ill-formed term, and accepts the last value it allows. -/

theorem test_wf_wrcr_read_only : Instr.wellFormed (.wrcr 6 0) = false := by decide

theorem test_wf_wrcr_reserved : Instr.wellFormed (.wrcr 15 0) = false := by decide

theorem test_wf_wrcr_last : Instr.wellFormed (.wrcr 5 0) = true := by decide

theorem test_wf_rdcr_reserved : Instr.wellFormed (.rdcr 11) = false := by decide

theorem test_wf_rdcr_last : Instr.wellFormed (.rdcr 10) = true := by decide

theorem test_wf_rdm_selector : Instr.wellFormed (.rdm 0 3) = false := by decide

theorem test_wf_rdm_last : Instr.wellFormed (.rdm 0 2) = true := by decide

theorem test_wf_qr_ab : Instr.wellFormed (.qr 1 1 2 3) = false := by decide

theorem test_wf_qr_ac : Instr.wellFormed (.qr 1 2 1 3) = false := by decide

theorem test_wf_qr_ad : Instr.wellFormed (.qr 3 7 11 3) = false := by decide

theorem test_wf_qr_bc : Instr.wellFormed (.qr 0 2 2 3) = false := by decide

theorem test_wf_qr_bd : Instr.wellFormed (.qr 0 2 3 2) = false := by decide

theorem test_wf_qr_cd : Instr.wellFormed (.qr 0 1 2 2) = false := by decide

theorem test_wf_qr_distinct : Instr.wellFormed (.qr 15 12 13 14) = true := by decide

/-! Decoding: a word of each command, written out from `CW = op << 56 | a << 44 | b << 40 | c << 36 | d << 32 | imm` (V60). -/

theorem test_decode_init : decode 0x0100000000000020 = .command (.init 32) ∧
    encode (.init 32) = 0x0100000000000020 := by
  decide

theorem test_decode_wrcr : decode 0x0200200000000064 = .command (.wrcr 2 100) ∧
    encode (.wrcr 2 100) = 0x0200200000000064 := by
  decide

theorem test_decode_rdcr : decode 0x0300600000000000 = .command (.rdcr 6) ∧
    encode (.rdcr 6) = 0x0300600000000000 := by
  decide

theorem test_decode_setw : decode 0x0400F0006B206574 = .command (.setw 15 0x6B206574) ∧
    encode (.setw 15 0x6B206574) = 0x0400F0006B206574 := by
  decide

theorem test_decode_rdm : decode 0x0500910000000000 = .command (.rdm 9 1) ∧
    encode (.rdm 9 1) = 0x0500910000000000 := by
  decide

theorem test_decode_qr : decode 0x1000AE2600000000 = .command (.qr 10 14 2 6) ∧
    encode (.qr 10 14 2 6) = 0x1000AE2600000000 := by
  decide

theorem test_decode_colrnd : decode 0x1100000000000000 = .command (.colrnd) ∧
    encode (.colrnd) = 0x1100000000000000 := by
  decide

theorem test_decode_rowrnd : decode 0x1200000000000000 = .command (.rowrnd) ∧
    encode (.rowrnd) = 0x1200000000000000 := by
  decide

theorem test_decode_dblrnd : decode 0x1300000000000000 = .command (.dblrnd) ∧
    encode (.dblrnd) = 0x1300000000000000 := by
  decide

theorem test_decode_perm : decode 0x1400000000000000 = .command (.perm) ∧
    encode (.perm) = 0x1400000000000000 := by
  decide

theorem test_decode_ctrw : decode 0x1800000000000000 = .command (.ctrw) ∧
    encode (.ctrw) = 0x1800000000000000 := by
  decide

theorem test_decode_ldw : decode 0x1900000000000000 = .command (.ldw) ∧
    encode (.ldw) = 0x1900000000000000 := by
  decide

theorem test_decode_ffwd : decode 0x1A00000000000000 = .command (.ffwd) ∧
    encode (.ffwd) = 0x1A00000000000000 := by
  decide

theorem test_decode_block : decode 0x1B00000000000000 = .command (.block) ∧
    encode (.block) = 0x1B00000000000000 := by
  decide

theorem test_decode_ctrinc : decode 0x2000000000000000 = .command (.ctrinc) ∧
    encode (.ctrinc) = 0x2000000000000000 := by
  decide

theorem test_decode_xork : decode 0x2100000000000040 = .command (.xork 64) ∧
    encode (.xork 64) = 0x2100000000000040 := by
  decide

theorem test_decode_combine : decode 0x2200000000000000 = .command (.combine) ∧
    encode (.combine) = 0x2200000000000000 := by
  decide

/-- The host's reading of a table word. -/
theorem test_decode_table_word : decodeTableWord 64 0x100059D100000000 = some (.qr 5 9 13 1) := by decide

/-- V50 t: `INIT 31` with field `a` set is an illegal word, whatever the length. -/
theorem test_illegal_unused_field : decode 0x010010000000001F = .illegal .reservedOrUnusedNotZero := by decide

/-! The step: a command of the host's list, an illegal word, the end of the list. -/

/-- V50 a, through the host's list. -/
theorem test_step_runs_the_word : faultRecord (step (fresh.withFetchWord 64 0x010000000000001F)) = some (0x100, 0x1F) := by
  decide

/-- V50 h: the `imm` half of an illegal word is not recorded. -/
theorem test_step_illegal_word : faultRecord (step (fresh.withFetchWord 64 0x1100000000000001)) = some (0x200, 0x11000000) := by
  decide

/-- R180: a reset during `XORK 2` after one byte of OUT leaves that byte and none of the unit's state. -/
theorem test_step_cut_by_reset :
    (after (step { stateE with
      o := oV21, len := 2, inp := bytesFrom 0 2 0, pending := [.commandCutByReset 0x2100000000000002 1] })).map
        (fun t => (t.out, t.pos, t.o, t.status)) = some ([(0, 0x08)], 0, zeroMatrix, 0) := by
  decide +kernel

/-- R61: the host writes IN during `XORK 1`; the byte read is the one drawn, and IN is the host's to say afterwards. -/
theorem test_step_while_host_writes :
    (after (step { stateE with
      o := oV21, len := 1, inp := [(0, 0)],
      pending := [.commandWhileHostWrites 0x2100000000000001 [] [(0, 0x40)]] })).map (fun t => (t.out, t.inp)) =
      some ([(0, 0x48)], [(0, 0)]) := by
  decide +kernel

/-- V44 in place: the storage holds the combination, and its byte past the buffer is untouched. -/
theorem test_step_in_place :
    (after (step { stateE with
      len := 5, inp := [(0, 0x53), (1, 0x61), (2, 0x6c), (3, 0x73), (4, 0x61), (5, 0xee)],
      pending := [.commandInPlace 0x2200000000000000] })).map (·.inp) =
      some [(0, 0x0e), (1, 0x66), (2, 0x46), (3, 0xb4), (4, 0xbf), (5, 0xee)] := by
  decide +kernel

/-- R180, R66: a reset during `XORK 2` on one storage after one byte leaves that byte over the input byte (V21: `08`), and the
second input byte as it was. -/
theorem test_step_in_place_cut_by_reset :
    (after (step { stateE with
      o := oV21, len := 2, inp := [(0, 0), (1, 0x77)],
      pending := [.commandInPlaceCutByReset 0x2100000000000002 1] })).map (fun t => (t.inp, t.out, t.pos, t.status)) =
      some ([(0, 0x08), (1, 0x77)], [(0, 0x08), (1, 0x77)], 0, 0) := by
  decide +kernel

/-- R180, R61: a reset during `XORK 2` after one byte, which is the drawn one combined. -/
theorem test_step_disturbed_cut_by_reset :
    (after (step { stateE with
      o := oV21, len := 2, inp := [(0, 0), (1, 0)],
      pending := [.commandWhileHostWritesCutByReset 0x2100000000000002 [] [(0, 0x40), (1, 0x41)] 1] })).map
        (fun t => (t.out, t.inp, t.status)) = some ([(0, 0x48)], [(0, 0), (1, 0)], 0) := by
  decide +kernel

/-- R194: the host withdraws a byte of IN. -/
theorem test_step_host_withdraw :
    (after (step { fresh with inp := [(0, 1), (1, 2)], pending := [.hostWithdraw .inp 0] })).map (·.inp) = some [(1, 2)] := by
  decide

/-- R194: the host makes four addresses of OUT available. -/
theorem test_step_provide_out :
    (after (step { fresh with pending := [.provideOut 4] })).map (·.outRoom) = some 4 := by
  decide

/-! One step of each command. -/

/-- V2. -/
theorem test_init_little :
    (after (exec (.init 32) { fresh with key := keyE, ctr := 7 })).map (fun t => (t.x, t.ctr, t.status)) = some (xE, 0, 1) := by
  decide +kernel

/-- V3 and V4: the big-endian word load, and the nonce words in cells 6 and 7. -/
theorem test_init_big_and_nonce :
    (after (exec (.init 32) { fresh with
      key := keyE, cfg := { nonceLo := 0x01234567, nonceHi := 0x89abcdef, loadOrder := .big, counterEncoding := .linear } })).map
        (·.x) =
      some #v[0x65787061, 0x30303030, 0x30303030, 0x30303030, 0x30303030, 0x6e642033, 0x01234567, 0x89abcdef,
              0, 0, 0x322d6279, 0x30303030, 0x30303030, 0x30303030, 0x30303031, 0x7465206b] := by
  decide +kernel

/-- V6: the two halves of `CTR` are written apart. -/
theorem test_wrcr_halves :
    (after (exec (.wrcr 0 2) { fresh with ctr := 0x00000001FFFFFFFF })).map (·.ctr) = some 0x0000000100000002 := by
  decide

/-- V50 l: `STATUS` is read-only. -/
theorem test_wrcr_read_only : faultRecord (exec (.wrcr 6 1) fresh) = some (0x200, 0x02006000) := by
  decide

/-- V6: the high half of `CTR`. -/
theorem test_rdcr_high : (after (exec (.rdcr 1) { fresh with ctr := 0x0000000100000002 })).map (·.rdata) = some 1 := by
  decide

/-- V51: `RDCR STATUS` executes in the fault state. -/
theorem test_rdcr_in_fault_state : (after (exec (.rdcr 6) faulty)).map (·.rdata) = some 0x100 := by
  decide

/-- V6. -/
theorem test_setw : (after (exec (.setw 5 0xdeadbeef) fresh)).map (·.w) = some (firstCells [0, 0, 0, 0, 0, 0xdeadbeef]) := by
  decide +kernel

/-- V6: `RDM 14, X` in state E. -/
theorem test_rdm_x : (after (exec (.rdm 14 1) stateE)).map (·.rdata) = some 0x31303030 := by
  decide

/-- V50 k: selector 3. -/
theorem test_rdm_selector : faultRecord (exec (.rdm 0 3) fresh) = some (0x200, 0x05000300) := by
  decide

/-- V1 row f. -/
theorem test_qr :
    (after (exec (.qr 0 1 2 3) { fresh with w := firstCells [0xe7e8c006, 0xc4f9417d, 0x6479b4b2, 0x68c67137] })).map (·.w) =
      some (firstCells [0xe876d72b, 0x9361dfd5, 0xf1460244, 0x948541a3]) := by
  decide +kernel

/-- V1, the remark on operand order: `QR 1, 2, 3, 0` on the input of row b. -/
theorem test_qr_operand_order :
    (after (exec (.qr 1 2 3 0) { fresh with w := firstCells [1] })).map (·.w) =
      some (firstCells [0x20100001, 0x00048044, 0x00000080, 0x00010000]) := by
  decide +kernel

/-- V10. -/
theorem test_colrnd :
    (after (exec .colrnd { fresh with w := firstCells [1, 0, 0, 0, 1, 0, 0, 0, 1, 0, 0, 0, 1] })).map (·.w) =
      some (firstCells [0x10090288, 0, 0, 0, 0x00000101, 0, 0, 0, 0x00020401, 0, 0, 0, 0x40a04001]) := by
  decide +kernel

/-- V11. -/
theorem test_rowrnd :
    (after (exec .rowrnd { fresh with w := firstCells [1, 0, 0, 0, 1, 0, 0, 0, 1, 0, 0, 0, 1] })).map (·.w) =
      some #v[0x08008145, 0x00000080, 0x00010200, 0x20500000, 0x20100001, 0x00048044, 0x00000080, 0x00010000,
              0x00000001, 0x00002000, 0x80040000, 0x00000000, 0x00000001, 0x00000200, 0x00402000, 0x88000100] := by
  decide +kernel

/-- V12. -/
theorem test_dblrnd :
    (after (exec .dblrnd { fresh with w := firstCells [1] })).map (·.w) =
      some #v[0x8186a22d, 0x0040a284, 0x82479210, 0x06929051, 0x08000090, 0x02402200, 0x00004000, 0x00800000,
              0x00010200, 0x20400000, 0x08008104, 0x00000000, 0x20500000, 0xa0000040, 0x0008180a, 0x612a8020] := by
  decide +kernel

/-- V13. -/
theorem test_perm :
    (after (exec .perm { fresh with w := firstCells [1] })).map (·.w) =
      some #v[0x1cd2c5b5, 0x12e00046, 0x30c96673, 0x0cf7b89c, 0x01c1035c, 0xcfe87193, 0xf0bc08ac, 0x8fbf36eb,
              0x1f424d57, 0x48054223, 0xf92f5c52, 0x973f4fc7, 0xd3b4c91b, 0x55e794b5, 0x154e3d69, 0x16f5a6a3] := by
  decide +kernel

/-- V15, `linear`. -/
theorem test_ctrw_linear :
    (after (exec .ctrw { stateE with ctr := 0x0123456789abcdef })).map (fun t => (cellOf t.x 8, cellOf t.x 9)) =
      some (0x89abcdef, 0x01234567) := by
  decide

/-- V15, `swapped`. -/
theorem test_ctrw_swapped :
    (after (exec .ctrw { stateE with
      ctr := 0x0123456789abcdef, cfg := { stateE.cfg with counterEncoding := .swapped } })).map
        (fun t => (cellOf t.x 8, cellOf t.x 9)) = some (0xefcdab89, 0) := by
  decide

/-- R122 in state E. -/
theorem test_ldw : (after (exec .ldw stateE)).map (·.w) = some xE := by
  decide +kernel

/-- V20: the feed-forward of cells 0 and 15, with a carry out of bit 31. -/
theorem test_ffwd :
    (after (exec .ffwd { stateE with
      w := #v[0x65b98ef8, 0, 0, 0, 0, 0, 0, 0, 0, 0, 0, 0, 0, 0, 0, 0xbeddf2cd] })).map
        (fun t => (cellOf t.o 0, cellOf t.o 15)) = some (0xc72a075d, 0x29fe5841) := by
  decide

/-- V21. -/
theorem test_block : (after (exec .block { stateE with ctr := 1 })).map (·.o) = some oV21 := by
  decide +kernel

/-- V50 n. -/
theorem test_block_not_initialized : faultRecord (exec .block fresh) = some (0x300, 0x1B000000) := by
  decide

/-- V32: the carry into the high half, and the wrap. -/
theorem test_ctrinc_carry : (after (exec .ctrinc { fresh with ctr := 0x00000000FFFFFFFF })).map (·.ctr) = some 0x100000000 := by
  decide

theorem test_ctrinc_wrap : (after (exec .ctrinc { fresh with ctr := 0xFFFFFFFFFFFFFFFF })).map (·.ctr) = some 0 := by
  decide

/-- V30 (b): the buffer offset is `POS + k`, the keystream index is `k`. -/
theorem test_xork :
    (after (exec (.xork 6) { stateE with
      o := oV21, len := 70, pos := 64,
      inp := [(64, 0x40), (65, 0x41), (66, 0x42), (67, 0x43), (68, 0x44), (69, 0x45)] })).map (fun t => (t.out, t.pos)) =
      some ([(64, 0x48), (65, 0x13), (66, 0x12), (67, 0xac), (68, 0x0d), (69, 0x95)], 70) := by
  decide +kernel

/-- V50 s: `POS > LEN` faults even for no bytes. -/
theorem test_xork_length : faultRecord (exec (.xork 0) { stateE with len := 5, pos := 10 }) = some (0x401, 0) := by
  decide

/-- V44: less than a block, so `CTR` stays 0. -/
theorem test_combine :
    (after (exec .combine { stateE with
      len := 5, inp := [(0, 0x53), (1, 0x61), (2, 0x6c), (3, 0x73), (4, 0x61)] })).map (fun t => (t.out, t.pos, t.ctr)) =
      some ([(0, 0x0e), (1, 0x66), (2, 0x46), (3, 0xb4), (4, 0xbf)], 5, 0) := by
  decide +kernel

/-- V30 (d), V42: the keystream itself, exactly one block, no tail: `CTR` is 1 and `X[8]` still 0. -/
theorem test_combine_full_block :
    (after (exec .combine { stateE with len := 64, inp := bytesFrom 0 64 0 })).map
        (fun t => (t.ctr, t.pos, cellOf t.x 8, Memory.read t.out 0, Memory.read t.out 63)) =
      some (1, 64, 0, some 0x5d, some 0x29) := by
  decide +kernel

/-! The hypotheses of the obligations, met together by concrete states and operands: one theorem for each obligation, and for
each of its clauses. -/

/-- State E with a buffer of two bytes. -/
def twoBytes : State :=
  { stateE with len := 2, inp := bytesFrom 0 2 0x53 }

/-- A state with one action of the host to come. -/
def next (s : State) (e : HostEvent) : State :=
  { s with pending := [e] }

theorem test_witness_EncodeOfDecode : decode 0x1000FCDE00000000 = .command (.qr 15 12 13 14) := by decide

theorem test_witness_IllegalWords_unknown_op : IllegalByFields 0x2300000000000000 := by
  unfold IllegalByFields; decide

theorem test_witness_IllegalWords_rsv : IllegalByFields 0x2280000000000000 := by
  unfold IllegalByFields; decide

theorem test_witness_IllegalWords_format_i : IllegalByFields 0x0100000100000020 ∧ IllegalByFields 0x2100100000000000 := by
  constructor <;> (unfold IllegalByFields; decide)

theorem test_witness_IllegalWords_format_ai : IllegalByFields 0x0200010000000000 ∧ IllegalByFields 0x0400000100000000 := by
  constructor <;> (unfold IllegalByFields; decide)

theorem test_witness_IllegalWords_format_a : IllegalByFields 0x0300000000000001 ∧ IllegalByFields 0x0300010000000000 := by
  constructor <;> (unfold IllegalByFields; decide)

theorem test_witness_IllegalWords_format_ab : IllegalByFields 0x0500001000000000 ∧ IllegalByFields 0x0500000080000000 := by
  constructor <;> (unfold IllegalByFields; decide)

theorem test_witness_IllegalWords_format_q : IllegalByFields 0x1000012300000001 := by
  unfold IllegalByFields; decide

theorem test_witness_IllegalWords_format_n : IllegalByFields 0x1200000100000000 ∧ IllegalByFields 0x1400000000000001 := by
  constructor <;> (unfold IllegalByFields; decide)

theorem test_witness_IllegalWords_legal : ¬ IllegalByFields 0x1000FFFF00000000 ∧ ¬ IllegalByFields 0x02005000FFFFFFFF := by
  constructor <;> (unfold IllegalByFields; decide)

theorem test_witness_StepRunsDecodedCommand :
    ∃ s : State, ∃ i : Instr, s.pending = [.command 0x2000000000000000] ∧ decode 0x2000000000000000 = .command i :=
  ⟨next fresh (.command 0x2000000000000000), .ctrinc, rfl, by decide⟩

theorem test_witness_IllegalWordFaults :
    ∃ s : State, s.pending = [.command 0x1500000000000000] ∧ IllegalByFields 0x1500000000000000 ∧ s.cause = 0 :=
  ⟨next fresh (.command 0x1500000000000000), rfl, by unfold IllegalByFields; decide, by decide⟩

theorem test_witness_StepEndsWithTheList : fresh.pending = [] := rfl

/-- Each fault of the table, at the first operand value that raises it. -/
theorem test_witness_FaultTable_faults :
    fresh.cause = 0 ∧ faultOf (.init 33) fresh = some (1, 33) ∧ faultOf (.wrcr 6 0) fresh = some (2, 0x02006000) ∧
      faultOf (.rdcr 11) fresh = some (2, 0x0300B000) ∧ faultOf (.rdm 0 3) fresh = some (2, 0x05000300) ∧
      faultOf (.qr 3 7 11 3) fresh = some (2, 0x100037B3) ∧ faultOf .ctrw fresh = some (3, 0x18000000) ∧
      faultOf .ldw fresh = some (3, 0x19000000) ∧ faultOf .ffwd fresh = some (3, 0x1A000000) ∧
      faultOf .block fresh = some (3, 0x1B000000) ∧ faultOf .combine fresh = some (3, 0x22000000) ∧
      faultOf (.xork 65) fresh = some (3, 0x21000000) ∧ twoBytes.cause = 0 ∧ faultOf (.xork 65) twoBytes = some (4, 65) ∧
      faultOf (.xork 3) twoBytes = some (4, 3) := by
  decide

/-- No fault, at the last operand value the table lets through. -/
theorem test_witness_FaultTable_none :
    faultOf (.init 32) fresh = none ∧ faultOf (.wrcr 5 0) fresh = none ∧ faultOf (.rdcr 10) fresh = none ∧
      faultOf (.rdm 15 2) fresh = none ∧ faultOf (.qr 15 12 13 14) fresh = none ∧ faultOf (.xork 2) twoBytes = none ∧
      faultOf .ctrinc fresh = none := by
  decide

theorem test_witness_FaultTable_none_completes : ∃ t, faultOf .ctrinc fresh = none ∧ exec .ctrinc fresh = .next t :=
  ⟨_, by decide, rfl⟩

theorem test_witness_FaultEntryIsPrecise : ∃ t, exec (.rdcr 11) fresh = .next t ∧ t.cause ≠ fresh.cause :=
  ⟨raiseBy .illegalCommand (.rdcr 11) fresh, rfl, by decide⟩

/-- A fault state in which the host has nothing more to issue. -/
theorem test_witness_FaultStateIgnoresCommands_final : faulty.cause ≠ 0 ∧ faulty.pending = [] := by decide

theorem test_witness_FaultStateIgnoresCommands_rdcr :
    ∃ s : State, ∃ cw : CommandWord, s.pending = [.command cw] ∧ s.cause ≠ 0 ∧ cw = encode (.rdcr 10) ∧ (10 : Fin 16).val ≤ 10 :=
  ⟨next faulty (.command 0x0300A00000000000), 0x0300A00000000000, rfl, by decide, by decide, by decide⟩

theorem test_witness_FaultStateIgnoresCommands_rdm :
    ∃ s : State, ∃ cw : CommandWord,
      s.pending = [.command cw] ∧ s.cause ≠ 0 ∧ cw = encode (.rdm 15 2) ∧ (2 : Fin 16).val ≤ 2 :=
  ⟨next faulty (.command 0x0500F20000000000), 0x0500F20000000000, rfl, by decide, by decide, by decide⟩

theorem test_witness_FaultStateIgnoresCommands_others :
    ∃ s : State, ∃ cw : CommandWord, s.pending = [.command cw] ∧ s.cause ≠ 0 ∧
      ∀ i, decode cw = .command i → readsInFaultState i = false :=
  ⟨next faulty (.command 0x0300B00000000000), 0x0300B00000000000, rfl, by decide, fun i h => by
    have e : decode 0x0300B00000000000 = .command (.rdcr 11) := by decide
    rw [e] at h
    cases h
    decide⟩

theorem test_witness_OnlyResetLeavesFaultState :
    ∃ s t : State, s.cause ≠ 0 ∧ step s = .next t ∧ ∀ e rest, s.pending = e :: rest → e.resets = false :=
  ⟨next faulty (.hostWrite .inp 0 1), _, by decide, rfl, fun e rest h => by cases h; rfl⟩

theorem test_witness_FaultedRunNeverEndsRight :
    ∃ s t : State, s.cause ≠ 0 ∧ s.willReset = false ∧ RunsTo 1 s t :=
  ⟨next faulty (.hostWrite .inp 0 1), _, by decide, by decide, rfl⟩

theorem test_witness_ResetValues : ∃ s : State, s.pending = [.reset] :=
  ⟨next twoBytes .reset, rfl⟩

/-- `XORK` cut after one of its two bytes, and after more bytes than it has. -/
theorem test_witness_ResetAbandonsCommand_xork :
    ∃ (s : State) (b : Nat → Byte), s.cause = 0 ∧ s.inited = true ∧ (2 : Word).toNat ≤ 64 ∧
      s.pos.toNat + (2 : Word).toNat ≤ s.len.toNat ∧ s.pending = [.commandCutByReset (encode (.xork 2)) 1] ∧
      (∀ k < min 1 (2 : Word).toNat, Memory.read s.inp (s.pos.toNat + k) = some (b k) ∧ s.pos.toNat + k < s.outRoom) ∧
      ∀ k < min 9 (2 : Word).toNat, Memory.read s.inp (s.pos.toNat + k) = some (b k) ∧ s.pos.toNat + k < s.outRoom :=
  ⟨next twoBytes (.commandCutByReset (encode (.xork 2)) 1), fun _ => 0x53, by decide, by decide, by decide, by decide, rfl,
    by decide, by decide⟩

theorem test_witness_ResetAbandonsCommand_combine :
    ∃ s t : State, s.cause = 0 ∧ s.inited = true ∧ s.pending = [.commandCutByReset (encode .combine) 1] ∧
      exec .combine s = .next t := by
  have h : (after (exec .combine (next twoBytes (.commandCutByReset (encode .combine) 1)))).isSome = true := by decide +kernel
  obtain ⟨t, ht⟩ := next_of_after h
  exact ⟨_, t, by decide, by decide, rfl, ht⟩

theorem test_witness_ResetAbandonsCommand_other :
    ∃ s : State, s.pending = [.commandCutByReset (encode .perm) 0] ∧ (∀ m, Instr.perm ≠ .xork m) ∧ Instr.perm ≠ .combine :=
  ⟨next twoBytes (.commandCutByReset (encode .perm) 0), rfl, nofun, nofun⟩

theorem test_witness_HostWritesItsMemoryOnly :
    ∃ s : State, s.pending = [.hostWrite .out 0xFFFFFFFFFFFFFFFF 7] ∧
      (Space.key ≠ Space.out ∨ (3 : Nat) ≠ (0xFFFFFFFFFFFFFFFF : DWord).toNat) :=
  ⟨next fresh (.hostWrite .out 0xFFFFFFFFFFFFFFFF 7), rfl, .inl (by decide)⟩

/-- IN holds other bytes than the command reads. -/
theorem test_witness_DisturbedReadsAreFreeDraws_xork :
    ∃ (s : State) (inp : Memory) (d : Nat → Byte), s.cause = 0 ∧
      s.pending = [.commandWhileHostWrites (encode (.xork 2)) [] inp] ∧ s.inited = true ∧ (2 : Word).toNat ≤ 64 ∧
      s.pos.toNat + (2 : Word).toNat ≤ s.len.toNat ∧
      (∀ k < (2 : Word).toNat, Memory.read inp (s.pos.toNat + k) = some (d k) ∧ s.pos.toNat + k < s.outRoom) ∧
      Memory.read s.inp 0 ≠ some (d 0) :=
  ⟨next twoBytes (.commandWhileHostWrites (encode (.xork 2)) [] (bytesFrom 0 2 0x99)), bytesFrom 0 2 0x99, fun _ => 0x99,
    by decide, rfl, by decide, by decide, by decide, by decide, by decide⟩

/-- A block and one byte, and no byte, with IN empty. -/
theorem test_witness_DisturbedReadsAreFreeDraws_combine :
    ∃ (s : State) (inp : Memory) (d : Nat → Byte), s.pending = [.commandWhileHostWrites (encode .combine) [] inp] ∧
      s.cause = 0 ∧ s.inited = true ∧ s.len ≠ 0 ∧ (∀ j < s.len.toNat, Memory.read inp j = some (d j)) ∧
      s.len.toNat ≤ s.outRoom :=
  ⟨{ next stateE (.commandWhileHostWrites (encode .combine) [] (bytesFrom 0 65 4)) with len := 65 }, bytesFrom 0 65 4,
    fun _ => 4, rfl, by decide, by decide, by decide, by decide +kernel, by decide⟩

theorem test_witness_DisturbedReadsAreFreeDraws_combine_empty :
    ∃ (s : State) (d : Nat → Byte), s.pending = [.commandWhileHostWrites (encode .combine) [] []] ∧ s.cause = 0 ∧
      s.inited = true ∧ s.len = 0 ∧ (∀ j < s.len.toNat, Memory.read [] j = some (d j)) ∧ s.len.toNat ≤ s.outRoom :=
  ⟨next stateE (.commandWhileHostWrites (encode .combine) [] []), fun _ => 0, rfl, by decide, by decide, rfl, by decide,
    by decide⟩

/-- A command that reads nothing, one that faults before it reads, and one that is ignored in the fault state. -/
theorem test_witness_DisturbedReadsAreFreeDraws_others :
    (∃ s : State, s.pending = [.commandWhileHostWrites (encode .perm) [] []] ∧ Instr.perm.op ∉ [Op.init, .xork, .combine]) ∧
      (∃ s : State, s.pending = [.commandWhileHostWrites (encode (.init 31)) [] []] ∧ faultOf (.init 31) s ≠ none) ∧
      ∃ s : State, s.pending = [.commandWhileHostWrites (encode .combine) [] []] ∧ s.cause ≠ 0 :=
  ⟨⟨next fresh (.commandWhileHostWrites (encode .perm) [] []), rfl, by decide⟩,
    ⟨next fresh (.commandWhileHostWrites (encode (.init 31)) [] []), rfl, by decide⟩,
    ⟨next faulty (.commandWhileHostWrites (encode .combine) [] []), rfl, by decide⟩⟩

theorem test_witness_DisturbedReadsAreFreeDraws_init :
    ∃ (s : State) (key : Memory) (d : Nat → Byte), s.cause = 0 ∧
      s.pending = [.commandWhileHostWrites (encode (.init 32)) key []] ∧ ∀ a < 32, Memory.read key a = some (d a) :=
  ⟨next stateE (.commandWhileHostWrites (encode (.init 32)) (bytesFrom 0 32 7) []), bytesFrom 0 32 7, fun _ => 7, by decide,
    rfl, by decide⟩

theorem test_witness_InitBuildsInitialMatrix :
    ∃ (s : State) (b : Nat → Byte), s.cause = 0 ∧ ∀ a < 32, Memory.read s.key a = some (b a) :=
  ⟨{ fresh with key := keyE }, fun a => if a = 31 then 0x31 else 0x30, by decide, by decide⟩

theorem test_witness_InitBuildsInitialMatrix_fault : fresh.cause = 0 ∧ (31 : Word) ≠ 32 ∧ (33 : Word) ≠ 32 := by decide

theorem test_witness_WrcrWritesOneRegister : fresh.cause = 0 ∧ (6 : Fin 16).val > 5 := by decide

theorem test_witness_RdcrCopiesRegister : fresh.cause = 0 ∧ faulty.cause ≠ 0 ∧ (11 : Fin 16).val > 10 := by decide

theorem test_witness_SetwWritesOneCell : fresh.cause = 0 ∧ (0 : Cell) ≠ 15 := by decide

theorem test_witness_RdmCopiesCell : fresh.cause = 0 ∧ faulty.cause ≠ 0 ∧ (3 : Fin 16).val > 2 := by decide

theorem test_witness_QrUpdatesFourCells :
    fresh.cause = 0 ∧ [(15 : Cell), 12, 13, 14].Nodup ∧ ¬ [(0 : Cell), 1, 2, 0].Nodup ∧ (0 : Cell) ∉ [15, 12, 13, 14] := by
  decide

theorem test_witness_QrIsBijective : fresh.cause = 0 ∧ [(0 : Cell), 4, 8, 12].Nodup := by decide

theorem test_witness_ColrndIsFourQuarterRounds : fresh.cause = 0 := by decide

theorem test_witness_RowrndIsFourQuarterRounds : stateE.cause = 0 := by decide

theorem test_witness_DblrndIsColumnThenRow : twoBytes.cause = 0 := by decide

theorem test_witness_PermIsTenDoubleRounds : fresh.cause = 0 ∧ ∀ i : Cell, fresh.w[i] = 0 := by decide

/-- Another order of the lanes of each pass, and a cell of a lane. -/
theorem test_witness_LanesInAnyOrder :
    fresh.cause = 0 ∧ [.qr 15 3 7 11, .qr 0 4 8 12, .qr 10 14 2 6, .qr 5 9 13 1] ≠ columnLanes ∧
      [.qr 15 3 7 11, .qr 0 4 8 12, .qr 10 14 2 6, .qr 5 9 13 1].Perm columnLanes ∧
      [.qr 15 12 13 14, .qr 5 6 7 4, .qr 0 1 2 3, .qr 10 11 8 9].Perm rowLanes ∧
      (7 : Cell) ∈ [(15 : Cell), 3, 7, 11] ∧ Instr.qr 15 3 7 11 ∈ columnLanes ∧ Instr.qr 15 12 13 14 ∈ rowLanes := by
  decide

theorem test_witness_LanesInAnyOrder_completes :
    ∃ t u v, exec (.qr 15 3 7 11) fresh = .next t ∧ exec .colrnd fresh = .next u ∧ exec .rowrnd fresh = .next v :=
  ⟨_, _, _, rfl, rfl, rfl⟩

theorem test_witness_CtrwWritesCounterCells :
    stateE.cause = 0 ∧ stateE.inited = true ∧ fresh.cause = 0 ∧ fresh.inited = false ∧ (7 : Cell) ≠ 8 ∧ (7 : Cell) ≠ 9 ∧
      stateE.cfg.counterEncoding = .linear := by
  decide

theorem test_witness_CtrwWritesCounterCells_swapped :
    ∃ s : State, s.cause = 0 ∧ s.inited = true ∧ s.cfg.counterEncoding = .swapped :=
  ⟨{ stateE with cfg := { stateE.cfg with counterEncoding := .swapped } }, by decide, by decide, rfl⟩

theorem test_witness_LdwCopiesInitialMatrix :
    stateE.cause = 0 ∧ stateE.inited = true ∧ fresh.cause = 0 ∧ fresh.inited = false := by
  decide

theorem test_witness_FfwdAddsCellwise :
    twoBytes.cause = 0 ∧ twoBytes.inited = true ∧ fresh.cause = 0 ∧ fresh.inited = false := by
  decide

theorem test_witness_BlockIsItsFourSteps :
    stateE.cause = 0 ∧ stateE.inited = true ∧ fresh.cause = 0 ∧ fresh.inited = false ∧ (10 : Cell) ≠ 8 ∧ (10 : Cell) ≠ 9 := by
  decide

theorem test_witness_KeystreamIsLittleEndianView : 3 < 4 := by decide

/-- Two states that differ in `W`, `O`, `X[8]` and `X[9]`. -/
theorem test_witness_KeystreamPurity :
    ∃ s s' : State, s.w ≠ s'.w ∧ s.o ≠ s'.o ∧ s.x ≠ s'.x ∧ s.cause = 0 ∧ s.inited = true ∧ s'.cause = 0 ∧ s'.inited = true ∧
      s.ctr = s'.ctr ∧ s.cfg.counterEncoding = s'.cfg.counterEncoding ∧ ∀ j : Cell, j ≠ 8 → j ≠ 9 → s.x[j] = s'.x[j] :=
  ⟨stateE, { stateE with w := xE, o := oV21, x := setCell (setCell xE 8 5) 9 6 }, by decide +kernel, by decide +kernel,
    by decide +kernel, by decide, by decide, by decide, by decide, rfl, rfl, by decide +kernel⟩

theorem test_witness_CtrincAddsOne : fresh.cause = 0 := by decide

/-- `XORK` to the very end of the buffer, and of no bytes. -/
theorem test_witness_XorkCombinesBytes :
    ∃ b : Nat → Byte, twoBytes.cause = 0 ∧ twoBytes.inited = true ∧ (2 : Word).toNat ≤ 64 ∧
      twoBytes.pos.toNat + (2 : Word).toNat ≤ twoBytes.len.toNat ∧
      (∀ k < (2 : Word).toNat,
        Memory.read twoBytes.inp (twoBytes.pos.toNat + k) = some (b k) ∧ twoBytes.pos.toNat + k < twoBytes.outRoom) ∧
      twoBytes.pos.toNat + (0 : Word).toNat ≤ twoBytes.len.toNat :=
  ⟨fun _ => 0x53, by decide, by decide, by decide, by decide, by decide, by decide⟩

/-- A whole block: 64 bytes. -/
theorem test_witness_XorkCombinesBytes_block :
    ∃ (s : State) (b : Nat → Byte), s.cause = 0 ∧ s.inited = true ∧ (64 : Word).toNat ≤ 64 ∧
      s.pos.toNat + (64 : Word).toNat ≤ s.len.toNat ∧
      ∀ k < (64 : Word).toNat, Memory.read s.inp (s.pos.toNat + k) = some (b k) ∧ s.pos.toNat + k < s.outRoom :=
  ⟨{ stateE with len := 64, inp := bytesFrom 0 64 9 }, fun _ => 9, by decide, by decide, by decide, by decide,
    by decide +kernel⟩

theorem test_witness_XorkCombinesBytes_faults :
    fresh.cause = 0 ∧ fresh.inited = false ∧ twoBytes.cause = 0 ∧ twoBytes.inited = true ∧ (65 : Word).toNat > 64 ∧
      twoBytes.pos.toNat + (3 : Word).toNat > twoBytes.len.toNat := by
  decide

/-- The second IN byte is missing. -/
theorem test_witness_XorkIsStuckAtRefusedAccess_in :
    ∃ s : State, s.cause = 0 ∧ s.inited = true ∧ (2 : Word).toNat ≤ 64 ∧ s.pos.toNat + (2 : Word).toNat ≤ s.len.toNat ∧
      1 < (2 : Word).toNat ∧
      (∀ j < 1, (Memory.read s.inp (s.pos.toNat + j)).isSome = true ∧ s.pos.toNat + j < s.outRoom) ∧
      Memory.read s.inp (s.pos.toNat + 1) = none :=
  ⟨{ twoBytes with inp := [(0, 1)] }, by decide, by decide, by decide, by decide, by decide, by decide, by decide⟩

/-- OUT has room for one byte. -/
theorem test_witness_XorkIsStuckAtRefusedAccess_out :
    ∃ s : State, s.cause = 0 ∧ s.inited = true ∧ (2 : Word).toNat ≤ 64 ∧ s.pos.toNat + (2 : Word).toNat ≤ s.len.toNat ∧
      1 < (2 : Word).toNat ∧
      (∀ j < 1, (Memory.read s.inp (s.pos.toNat + j)).isSome = true ∧ s.pos.toNat + j < s.outRoom) ∧
      (Memory.read s.inp (s.pos.toNat + 1)).isSome = true ∧ s.outRoom ≤ s.pos.toNat + 1 :=
  ⟨{ twoBytes with outRoom := 1 }, by decide, by decide, by decide, by decide, by decide, by decide, by decide, by decide⟩

/-- Each way to be stuck: a KEY byte, an IN byte, room in OUT. -/
theorem test_witness_OnlyRefusedAccessesStop :
    stuckAt (exec (.init 32) { fresh with key := bytesFrom 0 31 0 }) = some (.accessNotAdmitted .key 31) ∧
      stuckAt (exec (.xork 2) { twoBytes with inp := [(0, 1)] }) = some (.accessNotAdmitted .inp 1) ∧
      stuckAt (exec (.xork 2) { twoBytes with outRoom := 0 }) = some (.accessNotAdmitted .out 0) ∧
      stuckAt (exec .combine { twoBytes with inp := [(0, 1)] }) = some (.accessNotAdmitted .inp 1) := by
  decide +kernel

theorem test_witness_CombineIsItsMainLoop :
    twoBytes.cause = 0 ∧ twoBytes.inited = true ∧ fresh.cause = 0 ∧ fresh.inited = false := by
  decide

/-- A buffer of a block and one byte, and an empty one. -/
theorem test_witness_CombineClosedForm :
    ∃ (s : State) (b : Nat → Byte), s.cause = 0 ∧ s.inited = true ∧ s.len = 65 ∧
      (∀ j < s.len.toNat, Memory.read s.inp j = some (b j)) ∧ s.len.toNat ≤ s.outRoom :=
  ⟨{ stateE with len := 65, inp := bytesFrom 0 65 3 }, fun _ => 3, by decide, by decide, rfl, by decide +kernel, by decide⟩

theorem test_witness_CombineClosedForm_empty :
    ∃ b : Nat → Byte, stateE.cause = 0 ∧ stateE.inited = true ∧ stateE.len = 0 ∧
      (∀ j < stateE.len.toNat, Memory.read stateE.inp j = some (b j)) ∧ stateE.len.toNat ≤ stateE.outRoom :=
  ⟨fun _ => 0, by decide, by decide, rfl, by decide, by decide⟩

theorem test_witness_CombineIsAnInvolution :
    twoBytes.cause = 0 ∧ twoBytes.inited = true ∧ (∀ j < twoBytes.len.toNat, (Memory.read twoBytes.inp j).isSome = true) ∧
      twoBytes.len.toNat ≤ twoBytes.outRoom := by
  decide

/-- The OUT bytes of a call, given back as IN. -/
theorem test_witness_CombineIsAnInvolution_back :
    ∃ t, exec .combine twoBytes = .next t ∧
      ∃ inp : Memory, ∀ j < twoBytes.len.toNat, Memory.read inp j = Memory.read t.out j := by
  have h : (after (exec .combine twoBytes)).isSome = true := by decide +kernel
  obtain ⟨t, ht⟩ := next_of_after h
  exact ⟨t, ht, t.out, fun _ _ => rfl⟩

/-- Two units that differ in all the result may not depend on. -/
theorem test_witness_CallsAreFresh :
    ∃ s s' : State, s.w ≠ s'.w ∧ s.o ≠ s'.o ∧ s.x ≠ s'.x ∧ s.ctr ≠ s'.ctr ∧ s.pos ≠ s'.pos ∧ s.rdata ≠ s'.rdata ∧
      s.cause = 0 ∧ s'.cause = 0 ∧ s.cfg = s'.cfg ∧ s.len = s'.len ∧
      (∀ a < 32, (Memory.read s.key a).isSome = true ∧ Memory.read s.key a = Memory.read s'.key a) ∧
      (∀ j < s.len.toNat, (Memory.read s.inp j).isSome = true ∧ Memory.read s.inp j = Memory.read s'.inp j) ∧
      s.len.toNat ≤ s.outRoom ∧ s'.len.toNat ≤ s'.outRoom :=
  ⟨twoBytes, { twoBytes with
      w := xE, o := oV21, x := zeroMatrix, ctr := 7, pos := 9, rdata := 1, status := 0, inp := bytesFrom 0 9 0x53 },
    by decide +kernel, by decide +kernel, by decide +kernel, by decide, by decide, by decide, by decide, by decide, by decide,
    by decide, by decide +kernel, by decide +kernel, by decide, by decide⟩

theorem test_witness_InPlaceCombineReplacesBuffer :
    ∃ (s : State) (b : Nat → Byte), s.pending = [.commandInPlace (encode .combine)] ∧ s.cause = 0 ∧ s.inited = true ∧
      s.len = 65 ∧ (∀ j < s.len.toNat, Memory.read s.inp j = some (b j)) ∧ s.len.toNat ≤ s.outRoom :=
  ⟨{ stateE with len := 65, inp := bytesFrom 0 65 3, pending := [.commandInPlace (encode .combine)] }, fun _ => 3, rfl,
    by decide, by decide, rfl, by decide +kernel, by decide⟩

/-- One byte of two done, and more bytes than there are. -/
theorem test_witness_ResetAbandonsInPlaceCommand_xork :
    ∃ (s : State) (b : Nat → Byte), s.pending = [.commandInPlaceCutByReset (encode (.xork 2)) 1] ∧ s.cause = 0 ∧
      s.inited = true ∧ (2 : Word).toNat ≤ 64 ∧ s.pos.toNat + (2 : Word).toNat ≤ s.len.toNat ∧
      (∀ k < min 1 (2 : Word).toNat, Memory.read s.inp (s.pos.toNat + k) = some (b k) ∧ s.pos.toNat + k < s.outRoom) ∧
      ∀ k < min 9 (2 : Word).toNat, Memory.read s.inp (s.pos.toNat + k) = some (b k) ∧ s.pos.toNat + k < s.outRoom :=
  ⟨next twoBytes (.commandInPlaceCutByReset (encode (.xork 2)) 1), fun _ => 0x53, rfl, by decide, by decide, by decide,
    by decide, by decide, by decide⟩

theorem test_witness_ResetAbandonsInPlaceCommand_combine :
    ∃ (s : State) (b : Nat → Byte), s.pending = [.commandInPlaceCutByReset (encode .combine) 65] ∧ s.cause = 0 ∧
      s.inited = true ∧ ∀ j < min 65 s.len.toNat, Memory.read s.inp j = some (b j) ∧ j < s.outRoom :=
  ⟨{ stateE with len := 66, inp := bytesFrom 0 65 3, pending := [.commandInPlaceCutByReset (encode .combine) 65] },
    fun _ => 3, rfl, by decide, by decide, by decide +kernel⟩

/-- A command that writes no OUT byte, one that faults, one in the fault state, and an illegal word. -/
theorem test_witness_ResetAbandonsInPlaceCommand_others :
    (∃ s : State, s.pending = [.commandInPlaceCutByReset (encode .perm) 0] ∧ Instr.perm.op ∉ [Op.xork, .combine]) ∧
      (∃ s : State, s.pending = [.commandInPlaceCutByReset (encode .combine) 1] ∧ faultOf .combine s ≠ none) ∧
      (∃ s : State, s.pending = [.commandInPlaceCutByReset (encode (.xork 2)) 1] ∧ s.cause ≠ 0) ∧
      ∃ s : State, s.pending = [.commandInPlaceCutByReset 0 1] ∧ decode 0 = .illegal (.unknownOpcode 0) :=
  ⟨⟨next fresh (.commandInPlaceCutByReset (encode .perm) 0), rfl, by decide⟩,
    ⟨next fresh (.commandInPlaceCutByReset (encode .combine) 1), rfl, by decide⟩,
    ⟨next faulty (.commandInPlaceCutByReset (encode (.xork 2)) 1), rfl, by decide⟩,
    ⟨next fresh (.commandInPlaceCutByReset 0 1), rfl, by decide⟩⟩

theorem test_witness_ResetAbandonsDisturbedCommand_xork :
    ∃ (s : State) (inp : Memory) (d : Nat → Byte),
      s.pending = [.commandWhileHostWritesCutByReset (encode (.xork 2)) [] inp 1] ∧ s.cause = 0 ∧ s.inited = true ∧
      (2 : Word).toNat ≤ 64 ∧ s.pos.toNat + (2 : Word).toNat ≤ s.len.toNat ∧
      ∀ k < min 1 (2 : Word).toNat, Memory.read inp (s.pos.toNat + k) = some (d k) ∧ s.pos.toNat + k < s.outRoom :=
  ⟨next twoBytes (.commandWhileHostWritesCutByReset (encode (.xork 2)) [] [(0, 0x99)] 1), [(0, 0x99)], fun _ => 0x99, rfl,
    by decide, by decide, by decide, by decide, by decide⟩

theorem test_witness_ResetAbandonsDisturbedCommand_combine :
    ∃ (s : State) (inp : Memory) (d : Nat → Byte),
      s.pending = [.commandWhileHostWritesCutByReset (encode .combine) [] inp 65] ∧ s.cause = 0 ∧ s.inited = true ∧
      ∀ j < min 65 s.len.toNat, Memory.read inp j = some (d j) ∧ j < s.outRoom :=
  ⟨{ stateE with
      len := 66, pending := [.commandWhileHostWritesCutByReset (encode .combine) [] (bytesFrom 0 65 4) 65] },
    bytesFrom 0 65 4, fun _ => 4, rfl, by decide, by decide, by decide +kernel⟩

theorem test_witness_ResetAbandonsDisturbedCommand_others :
    (∃ s : State, s.pending = [.commandWhileHostWritesCutByReset (encode .perm) [] [] 0] ∧
        Instr.perm.op ∉ [Op.xork, .combine]) ∧
      (∃ s : State, s.pending = [.commandWhileHostWritesCutByReset (encode .combine) [] [] 1] ∧
        faultOf .combine s ≠ none) ∧
      (∃ s : State, s.pending = [.commandWhileHostWritesCutByReset (encode .combine) [] [] 1] ∧ s.cause ≠ 0) ∧
      ∃ s : State, s.pending = [.commandWhileHostWritesCutByReset 0 [] [] 1] ∧ decode 0 = .illegal (.unknownOpcode 0) :=
  ⟨⟨next fresh (.commandWhileHostWritesCutByReset (encode .perm) [] [] 0), rfl, by decide⟩,
    ⟨next fresh (.commandWhileHostWritesCutByReset (encode .combine) [] [] 1), rfl, by decide⟩,
    ⟨next faulty (.commandWhileHostWritesCutByReset (encode .combine) [] [] 1), rfl, by decide⟩,
    ⟨next fresh (.commandWhileHostWritesCutByReset 0 [] [] 1), rfl, by decide⟩⟩

theorem test_witness_PosWithinLength_xork :
    ∃ s t : State, s.cause = 0 ∧ exec (.xork 0) s = .next t ∧ t.cause = 0 ∧ t.pos = 2 :=
  ⟨{ twoBytes with pos := 2 }, { twoBytes with pos := 2 }, by decide, rfl, by decide, rfl⟩

theorem test_witness_PosWithinLength_combine :
    ∃ s t : State, s.cause = 0 ∧ exec .combine s = .next t ∧ t.cause = 0 :=
  ⟨{ stateE with pos := 9 }, { stateE with pos := 0 }, by decide, rfl, by decide⟩

theorem test_witness_OnlyTheNamedCommandsWrite : ∃ t, exec .ldw stateE = .next t ∧ t.w = xE :=
  ⟨_, rfl, rfl⟩

theorem test_witness_OutBeyondLengthUntouched : ∃ t, exec (.setw 3 1) twoBytes = .next t ∧ twoBytes.len.toNat ≤ 2 :=
  ⟨_, rfl, by decide⟩

/-- Other bytes in KEY from 32 on, in IN from `LEN` on and in OUT. -/
theorem test_witness_OnlyTheBuffersAreRead :
    ∃ (t : State) (key inp out : Memory), (∀ a < 32, Memory.read key a = Memory.read stateE.key a) ∧
      (∀ a < stateE.len.toNat, Memory.read inp a = Memory.read stateE.inp a) ∧ exec .block stateE = .next t ∧
      key ≠ stateE.key ∧ inp ≠ stateE.inp ∧ out ≠ stateE.out :=
  ⟨_, keyE ++ [(32, 1)], [(0, 4)], [(0, 5)], by decide, by decide, rfl, by decide, by decide, by decide⟩

theorem test_witness_ParametersNeverChange : ∃ s t : State, step s = .next t :=
  ⟨next fresh .reset, _, rfl⟩

/-- A state of the invariant that is not the one after reset, and a step from it. -/
theorem test_witness_StepKeepsInvariant : ∃ s t : State, s.Inv ∧ step s = .next t :=
  ⟨next twoBytes (.hostWrite .inp 2 1), _,
    ⟨by decide, by decide, by decide, by decide, by decide, by decide, by decide, by decide⟩, rfl⟩

end Sys2Proof.Tests
end

section
/-! SUPPORT. What a command that answers a next state has done, said once: it was ignored, it raised a fault, or it performed its
work. Every statement about one command is drawn from it. -/

namespace Sys2Proof.Machine

open Sys2Proof.Claims

/-- The work of a command whose checks pass (spec/40_matrix_and_init.md R91 to R95, spec/41_quarter_round.md R111,
spec/42_permutation_core.md R120 to R128, spec/43_cipher_engine.md R141 to R143). -/
def Performs (s t : State) : Instr → Prop
  | .init klen => klen = 32 ∧ ∃ bytes, memReadBytes .key s.key 0 32 = .ok bytes ∧ t = initWith bytes s
  | .wrcr cr imm => writeCR s cr imm = some t
  | .rdcr cr => ∃ v, readCR s cr = some v ∧ t = { s with rdata := v }
  | .setw a imm => t = { s with w := setCell s.w a imm }
  | .rdm a sel => ∃ m, selectMatrix s sel = some m ∧ t = { s with rdata := cellOf m a }
  | .qr a b c d => distinctCells a b c d = true ∧ t = { s with w := quarterRound s.w a b c d }
  | .colrnd => t = { s with w := columnRound s.w }
  | .rowrnd => t = { s with w := rowRound s.w }
  | .dblrnd => t = { s with w := doubleRound s.w }
  | .perm => t = permuteWorking s
  | .ctrw => s.inited = true ∧ t = writeCounter s
  | .ldw => s.inited = true ∧ t = loadWorking s
  | .ffwd => s.inited = true ∧ t = addInitial s
  | .block => s.inited = true ∧ t = makeBlock s
  | .ctrinc => t = incCounter s
  | .xork m => s.inited = true ∧ lengthAllowed s m = true ∧ xorBytes m.toNat s = .ok t
  | .combine => s.inited = true ∧ combineBuffer s.len.toNat s = .ok t

/-- The command has raised the fault that the table of spec/60_exceptions.md R161 gives it. -/
def Raises (s t : State) (i : Instr) : Prop :=
  s.cause = 0 ∧ ∃ c info, faultOf i s = some (Cause.code c, info) ∧ t = raise c info s

theorem ignored_or_of_unlessFaulted {s t : State} {k : Result} {P : Prop} (h : unlessFaulted s k = .next t)
    (hk : s.cause = 0 → k = .next t → P) : (s.faulted ∧ t = s) ∨ P :=
  (unlessFaulted_next.1 h).imp_right fun ⟨hc, h⟩ => hk hc h

/-- A command with no other check does its work wherever it is not ignored. -/
theorem ignored_or_eq {s t u : State} (h : unlessFaulted s (.next u) = .next t) : (s.faulted ∧ t = s) ∨ t = u :=
  ignored_or_of_unlessFaulted h fun _ h => by cases h; rfl

/-- A command that needs `INIT` is ignored, or raises NotInitialized, or goes on. -/
theorem ignored_or_of_whenInited {i : Instr} {s t : State} {k : Result} {P : Prop}
    (h : unlessFaulted s (whenInited i s k) = .next t)
    (hf : s.inited = false → faultOf i s = some (3, upperHalf (encode i)))
    (hk : s.cause = 0 → s.inited = true → k = .next t → Raises s t i ∨ P) : (s.faulted ∧ t = s) ∨ Raises s t i ∨ P :=
  ignored_or_of_unlessFaulted h fun hc h => by
    rcases whenInited_next.1 h with ⟨hi, rfl⟩ | ⟨hi, h⟩
    · exact .inl ⟨hc, .notInitialized, _, hf hi, rfl⟩
    · exact hk hc hi h

/-- A command with no check past `INIT` does its work wherever it is not ignored and raises no NotInitialized. -/
theorem ignored_or_eq_of_whenInited {i : Instr} {s t u : State} (h : unlessFaulted s (whenInited i s (.next u)) = .next t)
    (hf : s.inited = false → faultOf i s = some (3, upperHalf (encode i))) :
    (s.faulted ∧ t = s) ∨ Raises s t i ∨ s.inited = true ∧ t = u :=
  ignored_or_of_whenInited h hf fun _ hi h => by cases h; exact .inr ⟨hi, rfl⟩

theorem nodup_cells_iff (a b c d : Cell) : [a, b, c, d].Nodup ↔ distinctCells a b c d = true := by
  simp [distinctCells_iff, and_assoc]

/-- What a command that answers a next state has done: nothing, in the fault state; or fault entry; or its work. -/
theorem exec_next {i : Instr} {s t : State} (h : exec i s = .next t) :
    (s.faulted ∧ t = s) ∨ Raises s t i ∨ Performs s t i := by
  cases i with
  | init klen =>
    refine ignored_or_of_unlessFaulted h fun hc h => ?_
    split at h
    · next hk =>
      cases h
      have hne : klen ≠ 32 := by rintro rfl; exact hk rfl
      exact .inl ⟨hc, .keyLengthError, klen, if_neg hne, rfl⟩
    · next hk =>
      split at h
      · cases h
      · next bytes hb =>
        cases h
        exact .inr ⟨BitVec.eq_of_toNat_eq (not_not.1 hk), bytes, hb, rfl⟩
  | wrcr cr imm =>
    refine ignored_or_of_unlessFaulted h fun hc h => ?_
    split at h
    · next u hu => cases h; exact .inr hu
    · next hn =>
      cases h
      have hcr : cr.val > 5 := by simpa [hn] using writeCR_isSome_iff s cr imm
      exact .inl ⟨hc, .illegalCommand, _, if_pos hcr, rfl⟩
  | rdcr cr =>
    cases hr : readCR s cr with
    | some v =>
      simp only [exec, execRdcr, hr] at h
      cases h
      exact .inr (.inr ⟨v, hr, rfl⟩)
    | none =>
      simp only [exec, execRdcr, hr] at h
      refine ignored_or_of_unlessFaulted h fun hc h => ?_
      cases h
      have hcr : cr.val > 10 := by simpa [hr] using readCR_isSome_iff s cr
      exact .inl ⟨hc, .illegalCommand, _, if_pos hcr, rfl⟩
  | rdm a sel =>
    cases hr : selectMatrix s sel with
    | some m =>
      simp only [exec, execRdm, hr] at h
      cases h
      exact .inr (.inr ⟨m, hr, rfl⟩)
    | none =>
      simp only [exec, execRdm, hr] at h
      refine ignored_or_of_unlessFaulted h fun hc h => ?_
      cases h
      have hsel : sel.val > 2 := by simpa [hr] using selectMatrix_isSome_iff s sel
      exact .inl ⟨hc, .illegalCommand, _, if_pos hsel, rfl⟩
  | qr a b c d =>
    refine ignored_or_of_unlessFaulted h fun hc h => ?_
    split at h
    · next hd => cases h; exact .inr ⟨hd, rfl⟩
    · next hd =>
      cases h
      exact .inl ⟨hc, .illegalCommand, _, if_neg (mt (nodup_cells_iff a b c d).1 hd), rfl⟩
  | setw a imm => exact (ignored_or_eq h).imp_right .inr
  | colrnd => exact (ignored_or_eq h).imp_right .inr
  | rowrnd => exact (ignored_or_eq h).imp_right .inr
  | dblrnd => exact (ignored_or_eq h).imp_right .inr
  | perm => exact (ignored_or_eq h).imp_right .inr
  | ctrinc => exact (ignored_or_eq h).imp_right .inr
  | ctrw => exact ignored_or_eq_of_whenInited h fun hi => if_neg (by simp [hi])
  | ldw => exact ignored_or_eq_of_whenInited h fun hi => if_neg (by simp [hi])
  | ffwd => exact ignored_or_eq_of_whenInited h fun hi => if_neg (by simp [hi])
  | block => exact ignored_or_eq_of_whenInited h fun hi => if_neg (by simp [hi])
  | xork m =>
    refine ignored_or_of_whenInited h (fun hi => if_pos hi) fun hc hi h => ?_
    split at h
    · next hl => exact .inr ⟨hi, hl, settle_next.1 h⟩
    · next hl =>
      cases h
      have hl' : m.toNat > 64 ∨ s.pos.toNat + m.toNat > s.len.toNat := by
        rw [lengthAllowed_iff] at hl
        omega
      have hf : faultOf (.xork m) s = some (4, m) := by simp only [faultOf, hi, if_pos hl']; rfl
      exact .inl ⟨hc, .lengthError, m, hf, rfl⟩
  | combine => exact ignored_or_of_whenInited h (fun hi => if_neg (by simp [hi])) fun _ hi h => .inr ⟨hi, settle_next.1 h⟩

end Sys2Proof.Machine
end

section
/-! SUPPORT. What a command that performs its work may write (spec/10_state.md R20): one split over the seventeen commands, from
which the obligations about frames and invariants are drawn. -/

namespace Sys2Proof.Machine

/-- Each piece of the unit's own state is as before unless the command is one that R20 names for it; the rest of the state is as
before. -/
structure WritesOnlyItsOwn (s t : State) (i : Instr) : Prop where
  w : i.op ∈ [Op.ldw, .setw, .qr, .colrnd, .rowrnd, .dblrnd, .perm, .block, .combine] ∨ t.w = s.w
  x : i.op ∈ [Op.init, .ctrw, .block, .combine] ∨ t.x = s.x
  x_other : i.op = .init ∨ ∀ j : Cell, j ≠ 8 → j ≠ 9 → cellOf t.x j = cellOf s.x j
  o : i.op ∈ [Op.ffwd, .block, .combine] ∨ t.o = s.o
  ctr : i.op ∈ [Op.init, .wrcr, .ctrinc, .combine] ∨ t.ctr = s.ctr
  len : i.op = .wrcr ∨ t.len = s.len
  pos : i.op ∈ [Op.wrcr, .xork, .combine] ∨ t.pos = s.pos
  status : t.status = if i.op = .init then setInited s.status else s.status
  finfo : t.finfo = s.finfo
  rdata : i.op ∈ [Op.rdcr, .rdm] ∨ t.rdata = s.rdata
  out : i.op ∈ [Op.xork, .combine] ∨ t.out = s.out
  cfg : t.cfg = s.cfg
  key : t.key = s.key
  inp : t.inp = s.inp
  outRoom : t.outRoom = s.outRoom
  pending : t.pending = s.pending

theorem cellOf_withCounter_other (e : CounterEncoding) (ctr : DWord) (x : WordMatrix) {j : Cell} (h8 : j ≠ 8) (h9 : j ≠ 9) :
    cellOf (withCounter e ctr x) j = cellOf x j := by
  simp [cellOf_withCounter, h8, h9]

/-- The matrix a block is computed from determines every cell of `X` but the counter's two. -/
theorem cellOf_eq_of_blockInput_eq {s t : State} {c : DWord} (h : blockInput t c = blockInput s c) {j : Cell} (h8 : j ≠ 8)
    (h9 : j ≠ 9) : cellOf t.x j = cellOf s.x j := by
  have hj : cellOf (blockInput t c) j = cellOf (blockInput s c) j := by rw [h]
  simpa only [blockInput, cellOf_withCounter_other _ _ _ h8 h9] using hj

theorem performs_writesOnlyItsOwn {i : Instr} {s t : State} (h : Performs s t i) : WritesOnlyItsOwn s t i := by
  cases i with
  | init klen => obtain ⟨-, bytes, -, rfl⟩ := h; constructor <;> simp [Instr.op]
  | wrcr cr imm => rcases writeCR_some h with h | h | h <;> rw [h] <;> constructor <;> simp [Instr.op]
  | rdcr cr => obtain ⟨v, -, rfl⟩ := h; constructor <;> simp [Instr.op]
  | setw a imm => cases h; constructor <;> simp [Instr.op]
  | rdm a sel => obtain ⟨m, -, rfl⟩ := h; constructor <;> simp [Instr.op]
  | qr a b c d => obtain ⟨-, rfl⟩ := h; constructor <;> simp [Instr.op]
  | colrnd => cases h; constructor <;> simp [Instr.op]
  | rowrnd => cases h; constructor <;> simp [Instr.op]
  | dblrnd => cases h; constructor <;> simp [Instr.op]
  | perm => cases h; constructor <;> simp [Instr.op]
  | ctrw => obtain ⟨-, rfl⟩ := h; constructor <;> simp +contextual [Instr.op, cellOf_withCounter_other]
  | ldw => obtain ⟨-, rfl⟩ := h; constructor <;> simp [Instr.op]
  | ffwd => obtain ⟨-, rfl⟩ := h; constructor <;> simp [Instr.op]
  | block => obtain ⟨-, rfl⟩ := h; constructor <;> simp +contextual [Instr.op, cellOf_withCounter_other]
  | ctrinc => cases h; constructor <;> simp [Instr.op]
  | xork m =>
    obtain ⟨-, -, h⟩ := h
    obtain ⟨out', -, rfl⟩ := xorBytes_ok h
    constructor <;> simp [Instr.op]
  | combine =>
    obtain ⟨-, h⟩ := h
    have hx : ∀ j : Cell, j ≠ 8 → j ≠ 9 → cellOf t.x j = cellOf s.x j := by
      obtain ⟨-, -, hb, -⟩ := combineBuffer_ok h s.len.isLt
      exact fun _ h8 h9 => cellOf_eq_of_blockInput_eq (hb 0) h8 h9
    rw [combineBuffer_frame h]
    constructor <;> simp +contextual [Instr.op, hx]

/-- The six commands that need `INIT` perform their work only after one (R164). -/
theorem inited_of_performs {i : Instr} {s t : State} (h : Performs s t i)
    (hop : i.op ∈ [Op.ctrw, .ldw, .ffwd, .block, .xork, .combine]) : s.inited = true := by
  cases i with
  | ctrw => exact h.1
  | ldw => exact h.1
  | ffwd => exact h.1
  | block => exact h.1
  | xork m => exact h.1
  | combine => exact h.1
  | _ => simp [Instr.op] at hop

/-- Before the first `INIT`, no other command writes `X` or `O`. -/
theorem matrices_eq_of_not_inited {i : Instr} {s t : State} (h : Performs s t i) (hop : i.op ≠ .init)
    (hn : s.inited = false) : t.x = s.x ∧ t.o = s.o := by
  have hneeds : i.op ∉ [Op.ctrw, .ldw, .ffwd, .block, .xork, .combine] := fun hm =>
    Bool.false_ne_true (hn.symm.trans (inited_of_performs h hm))
  have f := performs_writesOnlyItsOwn h
  exact ⟨f.x.resolve_left (by simp_all), f.o.resolve_left (by simp_all)⟩

/-- A command that performs its work keeps the canonical form of OUT. -/
theorem out_wf_of_performs {i : Instr} {s t : State} (h : Performs s t i) (hw : Memory.wf s.out = true) :
    Memory.wf t.out = true := by
  rcases (performs_writesOnlyItsOwn h).out with hop | ho
  · cases i with
    | xork m =>
      obtain ⟨-, hl, h⟩ := h
      obtain ⟨-, hle⟩ := (lengthAllowed_iff s m).1 hl
      obtain ⟨out', hb, rfl⟩ := xorBytes_ok h
      exact (combineBytes_ok hb).2.2 hw (by omega)
    | combine =>
      obtain ⟨-, h⟩ := h
      obtain ⟨-, -, -, -, -, hwf, -⟩ := combineBuffer_ok h s.len.isLt
      exact hwf hw
    | _ => simp [Instr.op] at hop
  · rw [ho]; exact hw

end Sys2Proof.Machine
end

section
/-! SUPPORT. What the invariant of the machine rests on (spec/10_state.md R31, R32, R40): its part that speaks of the unit's
registers, and what every command, and every command that reset abandons, keeps. -/

namespace Sys2Proof.Machine

/-- The part of the invariant that speaks of the unit's registers. -/
structure RegInv (status finfo : Word) (x o : WordMatrix) : Prop where
  reserved_zero : statusReserved status = 0
  cause_listed : causeOf status ≤ 4
  finfo_zero : causeOf status = 0 → finfo = 0
  x_zero : initedOf status = false → x = zeroMatrix
  o_zero : initedOf status = false → o = zeroMatrix

theorem State.inv_iff (s : State) :
    s.Inv ↔ RegInv s.status s.finfo s.x s.o ∧ Memory.wf s.key = true ∧ Memory.wf s.inp = true ∧ Memory.wf s.out = true :=
  ⟨fun ⟨hk, hi, ho, hr, hc, hf, hx, hz⟩ => ⟨⟨hr, hc, hf, hx, hz⟩, hk, hi, ho⟩,
    fun ⟨⟨hr, hc, hf, hx, hz⟩, hk, hi, ho⟩ => ⟨hk, hi, ho, hr, hc, hf, hx, hz⟩⟩

/-- The registers as reset leaves them. -/
theorem regInv_reset : RegInv 0 0 zeroMatrix zeroMatrix :=
  ⟨by decide, by decide, fun _ => rfl, fun _ => rfl, fun _ => rfl⟩

/-- Fault entry keeps the invariant of the registers: the code is a listed one, and it is not 0 (R161, R165). -/
theorem RegInv.setCause {status finfo : Word} {x o : WordMatrix} (h : RegInv status finfo x o) (c : Cause) (info : Word) :
    RegInv (setCause status c.code) info x o where
  reserved_zero := by simpa using h.reserved_zero
  cause_listed := by rw [causeOf_setCause]; cases c <;> decide
  finfo_zero h0 := by rw [causeOf_setCause] at h0; exact absurd h0 c.code_ne_zero
  x_zero hi := h.x_zero (by simpa using hi)
  o_zero hi := h.o_zero (by simpa using hi)

/-- `INIT` keeps the invariant of the registers, whatever `X` it builds (R31). -/
theorem RegInv.setInited {status finfo : Word} {x o : WordMatrix} (h : RegInv status finfo x o) (x' o' : WordMatrix) :
    RegInv (setInited status) finfo x' o' where
  reserved_zero := by simpa using h.reserved_zero
  cause_listed := by simpa using h.cause_listed
  finfo_zero h0 := h.finfo_zero (by simpa using h0)
  x_zero hi := by simp at hi
  o_zero hi := by simp at hi

theorem regInv_of_performs {i : Instr} {s t : State} (h : Performs s t i) (hs : RegInv s.status s.finfo s.x s.o) :
    RegInv t.status t.finfo t.x t.o := by
  have f := performs_writesOnlyItsOwn h
  rw [f.status, f.finfo]
  split
  · exact hs.setInited _ _
  · next hop =>
    have hxo := fun hn => matrices_eq_of_not_inited h hop hn
    exact ⟨hs.reserved_zero, hs.cause_listed, hs.finfo_zero, fun hn => (hxo hn).1.trans (hs.x_zero hn),
      fun hn => (hxo hn).2.trans (hs.o_zero hn)⟩

/-- What every command keeps, and every command that reset abandons: the parameters, KEY and IN, the canonical form of OUT, and
the invariant of the registers. -/
structure Keeps (s t : State) : Prop where
  cfg : t.cfg = s.cfg
  key : t.key = s.key
  inp : t.inp = s.inp
  out_wf : Memory.wf s.out = true → Memory.wf t.out = true
  regs : RegInv s.status s.finfo s.x s.o → RegInv t.status t.finfo t.x t.o

theorem keeps_refl (s : State) : Keeps s s := ⟨rfl, rfl, rfl, id, id⟩

theorem keeps_raise (c : Cause) (info : Word) (s : State) : Keeps s (raise c info s) :=
  ⟨rfl, rfl, rfl, id, fun h => h.setCause c info⟩

theorem exec_keeps {i : Instr} {s t : State} (h : exec i s = .next t) : Keeps s t := by
  rcases exec_next h with ⟨-, rfl⟩ | ⟨-, c, info, -, rfl⟩ | hp
  · exact keeps_refl t
  · exact keeps_raise c info s
  · have f := performs_writesOnlyItsOwn hp
    exact ⟨f.cfg, f.key, f.inp, out_wf_of_performs hp, regInv_of_performs hp⟩

theorem runWord_keeps {cw : CommandWord} {s t : State} (h : runWord cw s = .next t) : Keeps s t := by
  unfold runWord at h
  split at h
  · exact exec_keeps h
  · rcases ignored_or_eq h with ⟨-, rfl⟩ | rfl
    · exact keeps_refl t
    · exact keeps_raise _ _ s

theorem cutByReset_keeps {cw : CommandWord} {written : Nat} {s t : State} (h : cutByReset cw written s = .next t) :
    Keeps s t := by
  obtain ⟨ht, hout⟩ := cutByReset_next h
  have hwf : Memory.wf s.out = true → Memory.wf t.out = true := by
    rcases hout with ⟨-, ho⟩ | ⟨i, u, -, hu, ho⟩ <;> rw [ho]
    · exact id
    · exact partWay_wf hu
  refine ⟨?_, ?_, ?_, hwf, fun _ => ?_⟩ <;> rw [ht]
  · rfl
  · rfl
  · rfl
  · exact regInv_reset

/-- What an action of the host keeps of the machine: the parameters and the invariant. -/
def ActionKeeps (s t : State) : Prop :=
  t.cfg = s.cfg ∧ (s.Inv → t.Inv)

theorem Keeps.action {s t : State} (k : Keeps s t) : ActionKeeps s t := by
  refine ⟨k.cfg, fun h => ?_⟩
  obtain ⟨hr, hk, hi, ho⟩ := s.inv_iff.1 h
  exact t.inv_iff.2 ⟨k.regs hr, k.key ▸ hk, k.inp ▸ hi, k.out_wf ho⟩

/-- The drawn bytes need not have the canonical form: KEY and IN are as before afterwards. -/
theorem drawing_keeps {key inp : Memory} {run : State → Result} {s t : State}
    (hrun : ∀ {u v}, run u = .next v → Keeps u v) (h : drawing key inp run s = .next t) : ActionKeeps s t := by
  obtain ⟨u, hu, rfl⟩ := drawing_next.1 h
  have k := hrun hu
  exact Keeps.action ⟨k.cfg, rfl, rfl, k.out_wf, k.regs⟩

/-- On one storage, IN and OUT afterwards are an OUT that began with the canonical form of IN. -/
theorem inOneStorage_keeps {run : State → Result} {s t : State} (hrun : ∀ {u v}, run u = .next v → Keeps u v)
    (h : inOneStorage run s = .next t) : ActionKeeps s t := by
  obtain ⟨u, hu, rfl⟩ := inOneStorage_next.1 h
  have k := hrun hu
  refine ⟨k.cfg, fun hs => ?_⟩
  obtain ⟨hr, hk, hi, -⟩ := s.inv_iff.1 hs
  exact (State.inv_iff _).2 ⟨k.regs hr, k.key ▸ hk, k.out_wf hi, k.out_wf hi⟩

theorem resetUnit_keeps (s : State) : ActionKeeps s (resetUnit s) :=
  Keeps.action ⟨rfl, rfl, rfl, id, fun _ => regInv_reset⟩

theorem setMemory_keeps (s : State) (space : Space) {m : Memory}
    (hm : Memory.wf (s.memory space) = true → Memory.wf m = true) : ActionKeeps s (s.setMemory space m) := by
  cases space with
  | key => exact ⟨rfl, fun h => { h with key_wf := hm h.key_wf }⟩
  | inp => exact ⟨rfl, fun h => { h with inp_wf := hm h.inp_wf }⟩
  | out => exact ⟨rfl, fun h => { h with out_wf := hm h.out_wf }⟩

theorem hostWrite_keeps (space : Space) (addr : DWord) (v : Byte) (s : State) :
    ActionKeeps s (hostWrite space addr v s) :=
  setMemory_keeps s space fun h => Memory.wf_write h addr.isLt v

theorem hostWithdraw_keeps (space : Space) (addr : DWord) (s : State) : ActionKeeps s (hostWithdraw space addr s) :=
  setMemory_keeps s space fun h => Memory.wf_erase h addr.toNat

theorem provideOut_keeps (room : Nat) (s : State) : ActionKeeps s { s with outRoom := room } :=
  Keeps.action ⟨rfl, rfl, rfl, id, id⟩

theorem consume_keeps (s : State) : ActionKeeps s s.consume :=
  Keeps.action ⟨rfl, rfl, rfl, id, id⟩

/-- Every action of the host keeps the parameters and the invariant. -/
theorem step_keeps {s t : State} (h : step s = .next t) : ActionKeeps s t := by
  suffices ht : ActionKeeps s.consume t from
    ⟨ht.1.trans (consume_keeps s).1, fun hs => ht.2 ((consume_keeps s).2 hs)⟩
  unfold step at h
  cases hp : s.pending with
  | nil => rw [hp] at h; cases h
  | cons e rest =>
    rw [hp] at h
    cases e with
    | command cw => exact (runWord_keeps h).action
    | reset => cases h; exact resetUnit_keeps _
    | commandCutByReset cw written => exact (cutByReset_keeps h).action
    | commandWhileHostWrites cw key inp => exact drawing_keeps runWord_keeps h
    | commandInPlace cw => exact inOneStorage_keeps runWord_keeps h
    | commandWhileHostWritesCutByReset cw key inp written => exact drawing_keeps cutByReset_keeps h
    | commandInPlaceCutByReset cw written => exact inOneStorage_keeps cutByReset_keeps h
    | hostWrite space addr v => cases h; exact hostWrite_keeps _ _ _ _
    | hostWithdraw space addr => cases h; exact hostWithdraw_keeps _ _ _
    | provideOut room => cases h; exact provideOut_keeps _ _

end Sys2Proof.Machine
end

section
/-! SUPPORT. A call (spec/10_state.md R39): `INIT 32`, then `COMBINE`. -/

namespace Sys2Proof.Machine

open Sys2Proof.Claims

/-- What `COMBINE` computes depends on the parameters, `X`, `CTR` and the bytes of IN in the buffer only (R145 (b)). -/
theorem combineBuffer_congr {n : Nat} {s s' t t' : State} (h : combineBuffer n s = .ok t) (h' : combineBuffer n s' = .ok t')
    (hn : n < 2 ^ 64) (hcfg : s.cfg = s'.cfg) (hx : s.x = s'.x) (hctr : s.ctr = s'.ctr)
    (hin : ∀ j < n, Memory.read s.inp j = Memory.read s'.inp j) :
    (∀ j < n, Memory.read t.out j = Memory.read t'.out j) ∧ t.x = t'.x ∧ t.ctr = t'.ctr ∧ t.pos = t'.pos := by
  have hb : ∀ c, blockInput s c = blockInput s' c := fun c => blockInput_congr c hcfg fun _ _ _ => by rw [hx]
  obtain ⟨kctr, kpos, -, kout, -, -, kzero, kblock⟩ := combineBuffer_ok h hn
  obtain ⟨kctr', kpos', -, kout', -, -, kzero', kblock'⟩ := combineBuffer_ok h' hn
  refine ⟨fun j hj => ?_, ?_, ?_, ?_⟩
  · obtain ⟨-, v, hv, ho⟩ := kout j hj
    obtain ⟨-, v', hv', ho'⟩ := kout' j hj
    obtain rfl : v = v' := Option.some.inj (hv.symm.trans ((hin j hj).trans hv'))
    rw [ho, ho', hctr, blockOutput_congr (hb _)]
  · by_cases h0 : n = 0
    · rw [kzero h0, kzero' h0]
      exact hx
    · obtain ⟨htx, -⟩ := kblock h0
      obtain ⟨htx', -⟩ := kblock' h0
      rw [htx, htx', hctr, hb]
  · rw [kctr, kctr', hctr]
  · exact BitVec.eq_of_toNat_eq (kpos.trans kpos'.symm)

/-- The key that KEY holds for `INIT 32`, where the host has provided it (R51). -/
def keyOf (s : State) : List Byte :=
  (List.range' 0 32).map fun a => (Memory.read s.key a).getD 0

/-- `INIT 32` outside the fault state, with the key provided (R91). -/
theorem exec_init_of_key {s : State} (hc : s.cause = 0) (hk : ∀ a < 32, (Memory.read s.key a).isSome = true) :
    exec (.init 32) s = .next (initWith (keyOf s) s) := by
  have hread : memReadBytes .key s.key 0 32 = .ok (keyOf s) :=
    memReadBytes_eq_ok .key s.key (fun a => (Memory.read s.key a).getD 0) 32 0 fun k hk' => by
      obtain ⟨v, hv⟩ := Option.isSome_iff_exists.1 (hk k hk')
      simp [hv]
  have hkb : (32 : Word).toNat = Config.keyBytes := rfl
  have hk32 : Config.keyBytes = 32 := rfl
  simp only [exec, execInit, unlessFaulted_of_ready hc, hkb, ne_eq, not_true, if_false, hk32, hread]

/-- A call whose key and input are provided, and whose output has room, completes: it is `COMBINE`'s effect on the unit that
`INIT` leaves. -/
theorem call_completes {s : State} (hc : s.cause = 0) (hk : ∀ a < 32, (Memory.read s.key a).isSome = true)
    (hin : ∀ j < s.len.toNat, (Memory.read s.inp j).isSome = true) (hroom : s.len.toNat ≤ s.outRoom) :
    ∃ t, inTurn [.init 32, .combine] s = .next t ∧ combineBuffer s.len.toNat (initWith (keyOf s) s) = .ok t := by
  obtain ⟨t, ht⟩ := combineBuffer_total (s := initWith (keyOf s) s) s.len.isLt fun j hj => ⟨hin j hj, hj.trans_le hroom⟩
  refine ⟨t, ?_, ht⟩
  have hcause : (initWith (keyOf s) s).cause = 0 := by simpa using hc
  have hcomb : exec .combine (initWith (keyOf s) s) = .next t := by
    simp only [exec, execCombine, unlessFaulted_of_ready hcause, whenInited_of_inited (initWith_inited _ _), initWith_len, ht,
      settle_ok]
  simp only [inTurn, exec_init_of_key hc hk, hcomb]

end Sys2Proof.Machine
end

section
/-! The obligations of spec/10_state.md. -/

namespace Sys2Proof.Proofs

open Sys2Proof Sys2Proof.Machine Sys2Proof.Claims

/-- Settles O52: every action of the host keeps the invariant. -/
theorem stepKeepsInvariant : Obligations.StepKeepsInvariant := by
  unfold Obligations.StepKeepsInvariant
  intro s t hs h
  exact (step_keeps h).2 hs

/-- Settles O50: every action of the host keeps the parameters. -/
theorem parametersNeverChange : Obligations.ParametersNeverChange := by
  unfold Obligations.ParametersNeverChange
  intro s t h
  exact (step_keeps h).1

/-- Settles O43: both calls complete, and `COMBINE` computes from what `INIT` left and the buffer only. -/
theorem callsAreFresh : Obligations.CallsAreFresh := by
  unfold Obligations.CallsAreFresh
  intro s s' hc hc' hcfg hlen hkey hin hroom hroom'
  have hkeys : keyOf s = keyOf s' := List.map_congr_left fun a ha => by
    rw [(hkey a (by simpa using ha)).2]
  obtain ⟨t, ht, hbuf⟩ := call_completes hc (fun a ha => (hkey a ha).1) (fun j hj => (hin j hj).1) hroom
  obtain ⟨t', ht', hbuf'⟩ := call_completes hc' (fun a ha => (hkey a ha).2 ▸ (hkey a ha).1)
    (fun j hj => (hin j (hlen ▸ hj)).2 ▸ (hin j (hlen ▸ hj)).1) hroom'
  rw [← hlen] at hbuf'
  have hx : (initWith (keyOf s) s).x = (initWith (keyOf s') s').x := by simp [hcfg, hkeys]
  exact ⟨t, t', ht, ht', combineBuffer_congr hbuf hbuf' s.len.isLt hcfg hx rfl fun j hj => (hin j hj).2⟩

/-- Settles O46: the length check of `XORK` bounds the new `POS`, and `COMBINE` ends at `LEN`. -/
theorem posWithinLength : Obligations.PosWithinLength := by
  unfold Obligations.PosWithinLength
  intro i s t hc hi h ht
  rcases exec_next h with ⟨hf, -⟩ | ⟨-, c, info, -, rfl⟩ | hp
  · exact absurd hc hf
  · exact absurd ((raise_cause c info s).symm.trans ht) c.code_ne_zero
  · rcases hi with ⟨m, rfl⟩ | rfl
    · obtain ⟨-, hl, hx⟩ := hp
      obtain ⟨-, hle⟩ := (lengthAllowed_iff s m).1 hl
      obtain ⟨out', -, rfl⟩ := xorBytes_ok hx
      calc (s.pos + BitVec.ofNat 64 m.toNat).toNat
          ≤ s.pos.toNat + m.toNat := by
            rw [BitVec.toNat_add, BitVec.toNat_ofNat]
            omega
        _ ≤ s.len.toNat := hle
    · obtain ⟨-, hx⟩ := hp
      obtain ⟨-, hpos, -⟩ := combineBuffer_ok hx s.len.isLt
      have hlen : t.len = s.len := by rw [combineBuffer_frame hx]
      rw [hpos, hlen]

/-- Settles O47: a command that is ignored writes nothing, fault entry writes `STATUS` and `FINFO`, and a command that performs
its work writes what R20 names for it. -/
theorem onlyTheNamedCommandsWrite : Obligations.OnlyTheNamedCommandsWrite := by
  unfold Obligations.OnlyTheNamedCommandsWrite
  intro i s t h
  rcases exec_next h with ⟨-, rfl⟩ | ⟨hc, c, info, -, rfl⟩ | hp
  · simp
  · have hne : c.code ≠ s.cause := by
      rw [hc]
      exact c.code_ne_zero
    simp [hne]
  · have f := performs_writesOnlyItsOwn hp
    have hstatus : i.op = .init ∧ t.inited = true ∨ t.status = s.status := by
      have hst := f.status
      split at hst
      · next hop => exact .inl ⟨hop, by rw [State.inited, hst, initedOf_setInited]⟩
      · exact .inr hst
    have hinited : t.inited = s.inited ∨ i.op = .init ∧ t.inited = true :=
      hstatus.symm.imp_left fun hst => by rw [State.inited, State.inited, hst]
    exact ⟨f.w, f.x, f.x_other, f.o, f.ctr, f.len, f.pos, hstatus.imp And.left .inr, hinited, .inr f.finfo, f.rdata, f.out,
      f.cfg, f.key, f.inp, f.outRoom, f.pending⟩

/-- Settles O14: the values of the reset state, and a reset of any state field by field. -/
theorem resetValues : Obligations.ResetValues := by
  unfold Obligations.ResetValues
  have hz : ∀ i : Cell, zeroMatrix[i] = 0 := cellOf_zeroMatrix
  refine ⟨fun i => ⟨hz i, hz i, hz i⟩, rfl, rfl, rfl, rfl, rfl, rfl, rfl, rfl, fun s rest h => ?_⟩
  simp only [step, resetUnit, State.consume, h]
  rfl

/-- Settles O51: no byte is placed, and the registers are as reset leaves them. -/
theorem resetHasInvariant : Obligations.ResetHasInvariant := by
  unfold Obligations.ResetHasInvariant
  exact (State.inv_iff _).2
    ⟨regInv_reset, State.reset_memory_wf .key, State.reset_memory_wf .inp, State.reset_memory_wf .out⟩

end Sys2Proof.Proofs
end

section
/-! SUPPORT. How a command ends (spec/20_memory.md R58): in a next state, or stuck at one of the accesses it makes. -/

namespace Sys2Proof.Machine

/-- The command is stuck with the given refused access: only the three commands that reach a memory can be (R58). -/
def StuckAt (s : State) (f : Fault) : Instr → Prop
  | .init klen => klen = 32 ∧ memReadBytes .key s.key 0 32 = .error f
  | .xork m => lengthAllowed s m = true ∧ xorBytes m.toNat s = .error f
  | .combine => combineBuffer s.len.toNat s = .error f
  | _ => False

/-- The outcome is a next state, or a refused access of which `P` holds. -/
def EndsOr (P : Fault → Prop) (r : Result) : Prop :=
  (∃ t, r = .next t) ∨ ∃ f, r = .fault f ∧ P f

theorem EndsOr.next {P : Fault → Prop} (t : State) : EndsOr P (.next t) :=
  .inl ⟨t, rfl⟩

theorem EndsOr.unlessFaulted {P : Fault → Prop} {s : State} {k : Result} (h : EndsOr P k) :
    EndsOr P (unlessFaulted s k) := by
  unfold Machine.unlessFaulted
  split
  · exact .next s
  · exact h

theorem EndsOr.whenInited {P : Fault → Prop} {i : Instr} {s : State} {k : Result} (h : EndsOr P k) :
    EndsOr P (whenInited i s k) := by
  unfold Machine.whenInited
  split
  · exact h
  · exact .next _

theorem EndsOr.settle {P : Fault → Prop} {r : Except Fault State} (h : ∀ f, r = .error f → P f) :
    EndsOr P (settle r) := by
  cases r with
  | ok t => exact .next t
  | error f => exact .inr ⟨f, rfl, h f rfl⟩

/-- Every command answers a next state or is stuck at an access of its own; none is refused. -/
theorem exec_endsOr (i : Instr) (s : State) : EndsOr (StuckAt s · i) (exec i s) := by
  cases i with
  | init klen =>
    refine .unlessFaulted ?_
    split
    · exact .next _
    · next hk =>
      split
      · next f hf => exact .inr ⟨f, rfl, BitVec.eq_of_toNat_eq (not_not.1 hk), hf⟩
      · exact .next _
  | xork m =>
    refine .unlessFaulted (.whenInited ?_)
    split
    · next hl => exact .settle fun f hf => ⟨hl, hf⟩
    · exact .next _
  | combine => exact .unlessFaulted (.whenInited (.settle fun f hf => hf))
  | wrcr cr imm =>
    refine .unlessFaulted ?_
    split <;> exact .next _
  | rdcr cr =>
    simp only [exec, execRdcr]
    split
    · exact .next _
    · exact .unlessFaulted (.next _)
  | rdm a sel =>
    simp only [exec, execRdm]
    split
    · exact .next _
    · exact .unlessFaulted (.next _)
  | qr a b c d =>
    refine .unlessFaulted ?_
    split <;> exact .next _
  | setw a imm => exact .unlessFaulted (.next _)
  | colrnd => exact .unlessFaulted (.next _)
  | rowrnd => exact .unlessFaulted (.next _)
  | dblrnd => exact .unlessFaulted (.next _)
  | perm => exact .unlessFaulted (.next _)
  | ctrinc => exact .unlessFaulted (.next _)
  | ctrw => exact .unlessFaulted (.whenInited (.next _))
  | ldw => exact .unlessFaulted (.whenInited (.next _))
  | ffwd => exact .unlessFaulted (.whenInited (.next _))
  | block => exact .unlessFaulted (.whenInited (.next _))

theorem exec_ne_refused (i : Instr) (s : State) (r : Refusal) : exec i s ≠ .refused r := by
  intro h
  rcases exec_endsOr i s with ⟨t, ht⟩ | ⟨f, hf, -⟩
  · exact nomatch h.symm.trans ht
  · exact nomatch h.symm.trans hf

theorem stuckAt_of_exec {i : Instr} {s : State} {f : Fault} (h : exec i s = .fault f) : StuckAt s f i := by
  rcases exec_endsOr i s with ⟨t, ht⟩ | ⟨f', hf', hs⟩
  · exact nomatch h.symm.trans ht
  · cases h.symm.trans hf'
    exact hs

/-! The three commands past their checks. -/

theorem exec_xork {m : Word} {s : State} (hc : s.cause = 0) (hi : s.inited = true) (hm : m.toNat ≤ 64)
    (hle : s.pos.toNat + m.toNat ≤ s.len.toNat) : exec (.xork m) s = settle (xorBytes m.toNat s) := by
  simp only [exec, execXork, unlessFaulted_of_ready hc, whenInited_of_inited hi, (lengthAllowed_iff s m).2 ⟨hm, hle⟩, if_true]

theorem exec_combine {s : State} (hc : s.cause = 0) (hi : s.inited = true) :
    exec .combine s = settle (combineBuffer s.len.toNat s) := by
  simp only [exec, execCombine, unlessFaulted_of_ready hc, whenInited_of_inited hi]

end Sys2Proof.Machine
end

section
/-! SUPPORT. The byte loop of the combiner: where it stops (spec/20_memory.md R58, R60), and the loop on one storage for IN and
OUT (R66). -/

namespace Sys2Proof.Machine

/-- The byte loop that was refused an access goes no further. -/
theorem combineBytes_error_of_le {inp : Memory} {room : Nat} {o : WordMatrix} {pos n m : Nat} {out : Memory} {f : Fault}
    (h : combineBytes inp room o pos n out = .error f) (hnm : n ≤ m) : combineBytes inp room o pos m out = .error f := by
  induction hnm with
  | refl => exact h
  | step _ ih => simp only [combineBytes, ih]

/-- Where the bytes before byte `k` go through, the loop is refused what byte `k` is refused: the read, or else the write. -/
theorem combineBytes_stuck {inp : Memory} {room : Nat} {o : WordMatrix} {pos k m : Nat} {out : Memory} (hk : k < m)
    (hbefore : ∀ j < k, (Memory.read inp (pos + j)).isSome = true ∧ pos + j < room) :
    (Memory.read inp (pos + k) = none → combineBytes inp room o pos m out = .error (.accessNotAdmitted .inp (pos + k))) ∧
      ((Memory.read inp (pos + k)).isSome = true → room ≤ pos + k →
        combineBytes inp room o pos m out = .error (.accessNotAdmitted .out (pos + k))) := by
  obtain ⟨mid, hmid⟩ := combineBytes_total o out hbefore
  refine ⟨fun hn => combineBytes_error_of_le ?_ hk, fun hsome hroom => combineBytes_error_of_le ?_ hk⟩
  · simp only [combineBytes, hmid, memRead, hn]
  · obtain ⟨v, hv⟩ := Option.isSome_iff_exists.1 hsome
    simp only [combineBytes, hmid, memRead, hv, memWrite, if_neg (Nat.not_lt.2 hroom)]

/-- On one storage each byte is read before it is overwritten, so the loop does what it does on a copy (R66). -/
theorem combineBytesInPlace_eq (room : Nat) (o : WordMatrix) (pos m : Nat) (mem : Memory) :
    combineBytesInPlace room o pos m mem = combineBytes mem room o pos m mem := by
  induction m with
  | zero => rfl
  | succ k ih =>
    simp only [combineBytesInPlace, combineBytes, ih]
    cases hmid : combineBytes mem room o pos k mem with
    | error f => rfl
    | ok mid =>
      obtain ⟨-, hrest, -⟩ := combineBytes_ok hmid
      have hunread : Memory.read mid (pos + k) = Memory.read mem (pos + k) := hrest _ (.inr le_rfl)
      simp only [memRead, hunread]

end Sys2Proof.Machine
end

section
/-! SUPPORT. What a command does with other contents of the host's memories (spec/20_memory.md R51 to R53): one that reaches no
memory does the same, and the three that do depend on the bytes of their range only. -/

namespace Sys2Proof.Machine

open Sys2Proof.Claims

/-- The machine with other contents of the three memories. -/
def State.withMemories (key inp out : Memory) (s : State) : State :=
  { s with key := key, inp := inp, out := out }

/-- An outcome whose next state, if there is one, has other contents of the three memories. -/
def withMemories (key inp out : Memory) : Result → Result
  | .next t => .next (t.withMemories key inp out)
  | .fault f => .fault f
  | .refused r => .refused r

/-- The command reaches no memory: it is ignored in the fault state, it is not one of the three that reach one, or it raises a
fault (R168, spec/60_exceptions.md R161). -/
def ReachesNoMemory (i : Instr) (s : State) : Prop :=
  s.cause ≠ 0 ∨ i.op ∉ [Op.init, .xork, .combine] ∨ faultOf i s ≠ none

theorem ReachesNoMemory.faults {i : Instr} {s : State} (h : ReachesNoMemory i s) (hc : s.cause = 0)
    (hop : i.op ∈ [Op.init, .xork, .combine]) : faultOf i s ≠ none :=
  (h.resolve_left (not_not.2 hc)).resolve_left (not_not.2 hop)

theorem unlessFaulted_withMemories {key inp out : Memory} {s : State} {k k' : Result}
    (h : s.cause = 0 → k' = withMemories key inp out k) :
    unlessFaulted (s.withMemories key inp out) k' = withMemories key inp out (unlessFaulted s k) := by
  by_cases hf : s.faulted
  · rw [unlessFaulted_of_faulted hf, unlessFaulted_of_faulted (s := s.withMemories key inp out) hf, withMemories]
  · have hc : s.cause = 0 := not_not.1 hf
    rw [unlessFaulted_of_ready hc, unlessFaulted_of_ready (s := s.withMemories key inp out) hc, h hc]

theorem whenInited_withMemories {key inp out : Memory} {i : Instr} {s : State} {k k' : Result}
    (h : s.inited = true → k' = withMemories key inp out k) :
    whenInited i (s.withMemories key inp out) k' = withMemories key inp out (whenInited i s k) := by
  cases hi : s.inited with
  | true => rw [whenInited_of_inited hi, whenInited_of_inited (s := s.withMemories key inp out) hi, h hi]
  | false =>
    rw [whenInited_of_not hi, whenInited_of_not (s := s.withMemories key inp out) hi]
    rfl

/-- A command that reaches no memory does the same whatever the memories hold, and leaves them. -/
theorem exec_withMemories {i : Instr} {s : State} (h : ReachesNoMemory i s) (key inp out : Memory) :
    exec i (s.withMemories key inp out) = withMemories key inp out (exec i s) := by
  cases i with
  | init klen =>
    refine unlessFaulted_withMemories fun hc => ?_
    have hk : klen.toNat ≠ Config.keyBytes := fun he =>
      h.faults hc (by simp [Instr.op]) (if_pos (BitVec.eq_of_toNat_eq he))
    rw [if_pos hk, if_pos hk]
    rfl
  | xork m =>
    refine unlessFaulted_withMemories fun hc => whenInited_withMemories fun hi => ?_
    have hl : ¬ lengthAllowed s m = true := fun hl => by
      obtain ⟨hm, hle⟩ := (lengthAllowed_iff s m).1 hl
      exact h.faults hc (by simp [Instr.op]) (by simp [faultOf, hi, hm, hle])
    rw [if_neg hl, if_neg (show ¬ lengthAllowed (s.withMemories key inp out) m = true from hl)]
    rfl
  | combine =>
    exact unlessFaulted_withMemories fun hc => whenInited_withMemories fun hi =>
      absurd (if_pos hi) (h.faults hc (by simp [Instr.op]))
  | wrcr cr imm => exact unlessFaulted_withMemories fun _ => by fin_cases cr <;> rfl
  | rdcr cr =>
    have hsame : readCR (s.withMemories key inp out) cr = readCR s cr := rfl
    simp only [exec, execRdcr, hsame]
    cases readCR s cr with
    | some v => rfl
    | none => exact unlessFaulted_withMemories fun _ => rfl
  | rdm a sel =>
    have hsame : selectMatrix (s.withMemories key inp out) sel = selectMatrix s sel := rfl
    simp only [exec, execRdm, hsame]
    cases selectMatrix s sel with
    | some v => rfl
    | none => exact unlessFaulted_withMemories fun _ => rfl
  | qr a b c d => exact unlessFaulted_withMemories fun _ => by cases distinctCells a b c d <;> rfl
  | setw a imm => exact unlessFaulted_withMemories fun _ => rfl
  | colrnd => exact unlessFaulted_withMemories fun _ => rfl
  | rowrnd => exact unlessFaulted_withMemories fun _ => rfl
  | dblrnd => exact unlessFaulted_withMemories fun _ => rfl
  | perm => exact unlessFaulted_withMemories fun _ => rfl
  | ctrinc => exact unlessFaulted_withMemories fun _ => rfl
  | ctrw => exact unlessFaulted_withMemories fun _ => whenInited_withMemories fun _ => rfl
  | ldw => exact unlessFaulted_withMemories fun _ => whenInited_withMemories fun _ => rfl
  | ffwd => exact unlessFaulted_withMemories fun _ => whenInited_withMemories fun _ => rfl
  | block => exact unlessFaulted_withMemories fun _ => whenInited_withMemories fun _ => rfl

/-- A command that reaches no memory leaves all three as they were. -/
theorem ReachesNoMemory.frame {i : Instr} {s t : State} (h : ReachesNoMemory i s) (ht : exec i s = .next t) :
    t.withMemories s.key s.inp s.out = t := by
  have hs : exec i s = withMemories s.key s.inp s.out (exec i s) := exec_withMemories h s.key s.inp s.out
  rw [ht] at hs
  exact (Host.Outcome.next.inj hs).symm

/-- From `m` to `n` and from `m'` to `n'` the same bytes are written at the same places. -/
def SameWrites (m n m' n' : Memory) : Prop :=
  ∀ a, Memory.read n' a = Memory.read n a ∨ (Memory.read n a = Memory.read m a ∧ Memory.read n' a = Memory.read m' a)

/-- The byte loop depends on the bytes of its range only. -/
theorem combineBytes_congr {inp inp' : Memory} {room : Nat} {o : WordMatrix} {pos m : Nat} {out mid : Memory} (out' : Memory)
    (h : combineBytes inp room o pos m out = .ok mid)
    (hin : ∀ k < m, Memory.read inp' (pos + k) = Memory.read inp (pos + k)) :
    ∃ mid', combineBytes inp' room o pos m out' = .ok mid' ∧ SameWrites out mid out' mid' := by
  obtain ⟨hrange, hrest, -⟩ := combineBytes_ok h
  obtain ⟨mid', h'⟩ := combineBytes_total (inp := inp') (room := room) o (pos := pos) (m := m) out' fun k hk => by
    obtain ⟨hroom, v, hv, -⟩ := hrange k hk
    exact ⟨by rw [hin k hk, hv]; rfl, hroom⟩
  obtain ⟨hrange', hrest', -⟩ := combineBytes_ok h'
  refine ⟨mid', h', fun a => ?_⟩
  by_cases ha : a < pos ∨ pos + m ≤ a
  · exact .inr ⟨hrest a ha, hrest' a ha⟩
  · obtain ⟨k, rfl⟩ : ∃ k, a = pos + k := ⟨a - pos, by omega⟩
    have hk : k < m := by omega
    obtain ⟨-, v, hv, hw⟩ := hrange k hk
    obtain ⟨-, v', hv', hw'⟩ := hrange' k hk
    obtain rfl : v' = v := Option.some.inj (hv'.symm.trans ((hin k hk).trans hv))
    exact .inl (hw'.trans hw.symm)

theorem xorBytes_withMemories {m : Nat} {s t : State} {inp : Memory} (key out : Memory) (h : xorBytes m s = .ok t)
    (hin : ∀ k < m, Memory.read inp (s.pos.toNat + k) = Memory.read s.inp (s.pos.toNat + k)) :
    ∃ out', xorBytes m (s.withMemories key inp out) = .ok (t.withMemories key inp out') ∧
      SameWrites s.out t.out out out' := by
  obtain ⟨mid, hmid, rfl⟩ := xorBytes_ok h
  obtain ⟨out', h', hsame⟩ := combineBytes_congr out hmid hin
  refine ⟨out', ?_, hsame⟩
  unfold xorBytes
  simp only [State.withMemories, h']

theorem combineBuffer_withMemories {n : Nat} {s t : State} {inp : Memory} (key out : Memory) (h : combineBuffer n s = .ok t)
    (hn : n < 2 ^ 64) (hin : ∀ j < n, Memory.read inp j = Memory.read s.inp j) :
    ∃ out', combineBuffer n (s.withMemories key inp out) = .ok (t.withMemories key inp out') ∧
      SameWrites s.out t.out out out' := by
  obtain ⟨kctr, -, -, kout, krest, -, kzero, kblock⟩ := combineBuffer_ok h hn
  obtain ⟨t', h'⟩ := combineBuffer_total (s := s.withMemories key inp out) hn fun j hj => by
    obtain ⟨hroom, v, hv, -⟩ := kout j hj
    exact ⟨by rw [show (s.withMemories key inp out).inp = inp from rfl, hin j hj, hv]; rfl, hroom⟩
  obtain ⟨kctr', -, -, -, krest', -, kzero', kblock'⟩ := combineBuffer_ok h' hn
  obtain ⟨hout, hx, -, hpos⟩ := combineBuffer_congr h' h hn rfl rfl rfl hin
  have hwo : t'.w = t.w ∧ t'.o = t.o := by
    by_cases h0 : n = 0
    · rw [kzero h0, kzero' h0]
      exact ⟨rfl, rfl⟩
    · obtain ⟨-, hw, ho⟩ := kblock h0
      obtain ⟨-, hw', ho'⟩ := kblock' h0
      exact ⟨hw'.trans hw.symm, ho'.trans ho.symm⟩
  obtain ⟨hw, ho⟩ := hwo
  refine ⟨t'.out, h'.trans (congrArg _ ?_), fun a => ?_⟩
  · rw [combineBuffer_frame h', hx, hw, ho, kctr', hpos, combineBuffer_frame h, kctr]
    rfl
  · by_cases ha : a < n
    · exact .inl (hout a ha)
    · exact .inr ⟨krest a (by omega), krest' a (by omega)⟩

theorem memReadBytes_congr (space : Space) {m m' : Memory} {addr n : Nat}
    (h : ∀ k < n, Memory.read m' (addr + k) = Memory.read m (addr + k)) :
    memReadBytes space m' addr n = memReadBytes space m addr n := by
  induction n generalizing addr with
  | zero => rfl
  | succ n ih =>
    have hfirst : Memory.read m' addr = Memory.read m addr := h 0 (by omega)
    have hothers : memReadBytes space m' (addr + 1) n = memReadBytes space m (addr + 1) n :=
      ih fun k hk => by simpa only [Nat.add_assoc, Nat.add_comm 1 k] using h (k + 1) (by omega)
    simp only [memReadBytes, memRead, hfirst, hothers]

/-- What reaches a memory and answers a next state outside the fault state has performed its work. -/
theorem performs_of_reaches {i : Instr} {s t : State} (h : exec i s = .next t) (hr : ¬ ReachesNoMemory i s) :
    s.cause = 0 ∧ i.op ∈ [Op.init, .xork, .combine] ∧ Performs s t i := by
  obtain ⟨hc, hop, hf⟩ : s.cause = 0 ∧ i.op ∈ [Op.init, .xork, .combine] ∧ faultOf i s = none := by
    simpa only [ReachesNoMemory, not_or, not_not] using hr
  refine ⟨hc, hop, ?_⟩
  rcases exec_next h with ⟨hfaulted, -⟩ | ⟨-, c, info, hsome, -⟩ | hp
  · exact absurd hc hfaulted
  · exact nomatch hf.symm.trans hsome
  · exact hp

/-- The converse for the three commands that reach a memory: what has its checks passed and its work done is what the command
does. -/
theorem exec_of_performs {i : Instr} {s t : State} (hc : s.cause = 0) (hop : i.op ∈ [Op.init, .xork, .combine])
    (hp : Performs s t i) : exec i s = .next t := by
  cases i with
  | init klen =>
    obtain ⟨rfl, bytes, hb, rfl⟩ := hp
    have hkb : (32 : Word).toNat = Config.keyBytes := rfl
    have hk32 : Config.keyBytes = 32 := rfl
    simp only [exec, execInit, unlessFaulted_of_ready hc, hkb, ne_eq, not_true, if_false, hk32, hb]
  | xork m =>
    obtain ⟨hi, hl, hx⟩ := hp
    obtain ⟨hm, hle⟩ := (lengthAllowed_iff s m).1 hl
    rw [exec_xork hc hi hm hle, hx, settle_ok]
  | combine =>
    obtain ⟨hi, hx⟩ := hp
    rw [exec_combine hc hi, hx, settle_ok]
  | _ => simp [Instr.op] at hop

/-- The work of a command that reaches a memory depends on KEY below 32 and IN below `LEN` only (R51, R52). -/
theorem performs_withMemories {i : Instr} {s t : State} {key inp : Memory} (out : Memory)
    (hop : i.op ∈ [Op.init, .xork, .combine]) (hp : Performs s t i)
    (hkey : ∀ a < 32, Memory.read key a = Memory.read s.key a)
    (hinp : ∀ a < s.len.toNat, Memory.read inp a = Memory.read s.inp a) :
    ∃ out', Performs (s.withMemories key inp out) (t.withMemories key inp out') i ∧ SameWrites s.out t.out out out' := by
  cases i with
  | init klen =>
    obtain ⟨rfl, bytes, hb, rfl⟩ := hp
    have hsame : memReadBytes .key key 0 32 = memReadBytes .key s.key 0 32 :=
      memReadBytes_congr .key fun k hk => by simpa only [Nat.zero_add] using hkey k hk
    exact ⟨out, ⟨rfl, bytes, hsame.trans hb, rfl⟩, fun a => .inr ⟨rfl, rfl⟩⟩
  | xork m =>
    obtain ⟨hi, hl, hx⟩ := hp
    obtain ⟨-, hle⟩ := (lengthAllowed_iff s m).1 hl
    obtain ⟨out', hx', hsame⟩ := xorBytes_withMemories key out hx fun k hk => hinp _ (by omega)
    exact ⟨out', ⟨hi, hl, hx'⟩, hsame⟩
  | combine =>
    obtain ⟨hi, hx⟩ := hp
    obtain ⟨out', hx', hsame⟩ := combineBuffer_withMemories key out hx s.len.isLt hinp
    exact ⟨out', ⟨hi, hx'⟩, hsame⟩
  | _ => simp [Instr.op] at hop

end Sys2Proof.Machine
end

section
/-! SUPPORT. The notions the statements are written in, by the model's own: the keystream view, the block of a counter, word
assembly from bytes, the initial matrix. -/

namespace Sys2Proof.Machine

open Sys2Proof.Claims

/-- `KS(k)` of the model is the keystream byte of spec/42_permutation_core.md R129. -/
theorem ks_eq_keystream (o : WordMatrix) {k : Nat} (hk : k < 64) : ks o k = keystream o k := by
  have hlt : k / 4 < 16 := by omega
  have hcell : cellOf o (Fin.ofNat 16 (k / 4)) = o[k / 4]?.getD 0 := by
    simp [cellOf, Nat.mod_eq_of_lt hlt, hlt]
  apply BitVec.eq_of_toNat_eq
  rw [ks, keystream, byteOf, hcell]
  simp

/-- Outside the fault state and after `INIT`, the block of the counter `c` is what the model computes for `c` (R130). -/
theorem holdsBlock_blockAt {s : State} (hc : s.cause = 0) (hi : s.inited = true) (c : DWord) :
    HoldsBlock (blockAt s c) s c := by
  have hc' : ({ s with ctr := c } : State).cause = 0 := hc
  have hi' : ({ s with ctr := c } : State).inited = true := hi
  have hblock : blockAt s c = makeBlock { s with ctr := c } := by
    simp only [blockAt, exec, execBlock, unlessFaulted_of_ready hc', whenInited_of_inited hi']
  rw [hblock]
  exact ⟨rfl, rfl, rfl⟩

theorem blockAt_o {s : State} (hc : s.cause = 0) (hi : s.inited = true) (c : DWord) :
    (blockAt s c).o = blockOutput s c :=
  (holdsBlock_blockAt hc hi c).2.2

/-- Two states that hold the block of one counter have the same matrices. -/
theorem HoldsBlock.matrices_eq {s t u : State} {c : DWord} (ht : HoldsBlock t s c) (hu : HoldsBlock u s c) :
    t.x = u.x ∧ t.w = u.w ∧ t.o = u.o := by
  obtain ⟨hx, hw, ho⟩ := ht
  obtain ⟨hx', hw', ho'⟩ := hu
  exact ⟨hx.trans hx'.symm, hw.trans hw'.symm, ho.trans ho'.symm⟩

theorem toNat_append_eq_add {m n : Nat} (x : BitVec m) (y : BitVec n) : (x ++ y).toNat = 2 ^ n * x.toNat + y.toNat := by
  rw [BitVec.toNat_append, ← Nat.shiftLeft_add_eq_or_of_lt y.isLt, Nat.shiftLeft_eq, Nat.mul_comm]

/-- The model's byte assembly has the values of spec/00_scope.md R12. -/
theorem load32_eq_load (order : LoadOrder) (b0 b1 b2 b3 : Byte) : load32 order b0 b1 b2 b3 = load order b0 b1 b2 b3 := by
  cases order <;> apply BitVec.eq_of_toNat_eq <;>
    simp only [load32, load, toNat_append_eq_add, BitVec.toNat_ofNat] <;> omega

/-- A word of a sequence of bytes given by address. -/
theorem loadWord_eq_loadAt (order : LoadOrder) (b : Nat → Byte) {n j : Nat} (hj : 4 * j + 3 < n) :
    loadWord order ((List.range' 0 n).map b) j = loadAt order b j := by
  have hget : ∀ k < n, ((List.range' 0 n).map b).getD k 0 = b k := fun k hk => by simp [hk]
  rw [loadWord, loadAt, load32_eq_load, hget _ (by omega), hget _ (by omega), hget _ (by omega), hget _ hj]

/-- The four words of `SIGMA` in either word load order (log 11). -/
theorem loadWord_sigma (order : LoadOrder) :
    loadWord order Config.sigma 0 = (if order = .little then 0x61707865 else 0x65787061) ∧
      loadWord order Config.sigma 1 = (if order = .little then 0x3320646e else 0x6e642033) ∧
      loadWord order Config.sigma 2 = (if order = .little then 0x79622d32 else 0x322d6279) ∧
      loadWord order Config.sigma 3 = (if order = .little then 0x6b206574 else 0x7465206b) := by
  cases order <;> decide

/-- The initial matrix of a key given by address, cell by cell (spec/10_state.md R24). -/
theorem initialMatrix_eq (p : Params) (b : Nat → Byte) :
    let kw := loadAt p.loadOrder b
    let cw : Word → Word → Word := fun little big => if p.loadOrder = .little then little else big
    initialMatrix p ((List.range' 0 32).map b) =
      #v[cw 0x61707865 0x65787061, kw 0, kw 1, kw 2,
         kw 3, cw 0x3320646e 0x6e642033, p.nonceLo, p.nonceHi,
         0, 0, cw 0x79622d32 0x322d6279, kw 4,
         kw 5, kw 6, kw 7, cw 0x6b206574 0x7465206b] := by
  obtain ⟨h0, h1, h2, h3⟩ := loadWord_sigma p.loadOrder
  simp (disch := omega) only [initialMatrix, h0, h1, h2, h3, loadWord_eq_loadAt]

theorem keyOf_eq {s : State} {b : Nat → Byte} (h : ∀ a < 32, Memory.read s.key a = some (b a)) :
    keyOf s = (List.range' 0 32).map b :=
  List.map_congr_left fun a ha => by
    rw [h a (by simpa using ha)]
    rfl

end Sys2Proof.Machine
end

section
/-! SUPPORT. `XORK` and `COMBINE` where the host's memories admit every access (spec/20_memory.md R58): the whole of what each
leaves (spec/43_cipher_engine.md R141, R144). -/

namespace Sys2Proof.Machine

open Sys2Proof.Claims

theorem exec_xork_of_bytes {m : Word} {s : State} {b : Nat → Byte} (hc : s.cause = 0) (hi : s.inited = true)
    (hm : m.toNat ≤ 64) (hle : s.pos.toNat + m.toNat ≤ s.len.toNat)
    (hin : ∀ k < m.toNat, Memory.read s.inp (s.pos.toNat + k) = some (b k) ∧ s.pos.toNat + k < s.outRoom) :
    ∃ out, exec (.xork m) s = .next { s with out := out, pos := s.pos + m.setWidth 64 } ∧
      (∀ k < m.toNat, Memory.read out (s.pos.toNat + k) = some (b k ^^^ keystream s.o k)) ∧
      ∀ a, a < s.pos.toNat ∨ s.pos.toNat + m.toNat ≤ a → Memory.read out a = Memory.read s.out a := by
  obtain ⟨t, ht⟩ := xorBytes_total (m := m.toNat) (s := s) fun k hk => by
    obtain ⟨hb, hroom⟩ := hin k hk
    exact ⟨by rw [hb]; rfl, hroom⟩
  obtain ⟨out, hout, rfl⟩ := xorBytes_ok ht
  obtain ⟨hrange, hrest, -⟩ := combineBytes_ok hout
  refine ⟨out, ?_, fun k hk => ?_, hrest⟩
  · rw [exec_xork hc hi hm hle, ht, settle_ok, BitVec.ofNat_toNat]
  · obtain ⟨-, v, hv, hw⟩ := hrange k hk
    obtain rfl : b k = v := Option.some.inj ((hin k hk).1.symm.trans hv)
    rw [hw, ks_eq_keystream _ (by omega), xor8]

/-- `t` is what `COMBINE` leaves of `s` on a buffer that holds the bytes `b` (R144). -/
structure CombinesBuffer (b : Nat → Byte) (s t : State) : Prop where
  frame : t = { s with x := t.x, w := t.w, o := t.o, ctr := t.ctr, pos := s.len, out := t.out }
  bytes : ∀ j < s.len.toNat, Memory.read t.out j =
    some (b j ^^^ keystream (blockOutput s (s.ctr + BitVec.ofNat 64 (j / 64))) (j % 64))
  rest : ∀ a, s.len.toNat ≤ a → Memory.read t.out a = Memory.read s.out a
  ctr : t.ctr.toNat = (s.ctr.toNat + s.len.toNat / 64) % 2 ^ 64
  empty : s.len = 0 → t.x = s.x ∧ t.w = s.w ∧ t.o = s.o
  block : s.len ≠ 0 → HoldsBlock t s (s.ctr + BitVec.ofNat 64 ((s.len.toNat - 1) / 64))

theorem exec_combine_of_bytes {s : State} {b : Nat → Byte} (hc : s.cause = 0) (hi : s.inited = true)
    (hin : ∀ j < s.len.toNat, Memory.read s.inp j = some (b j)) (hroom : s.len.toNat ≤ s.outRoom) :
    ∃ t, exec .combine s = .next t ∧ CombinesBuffer b s t := by
  obtain ⟨t, ht⟩ := combineBuffer_total (s := s) s.len.isLt fun j hj => ⟨by rw [hin j hj]; rfl, hj.trans_le hroom⟩
  obtain ⟨kctr, kpos, -, kout, krest, -, kzero, kblock⟩ := combineBuffer_ok ht s.len.isLt
  refine ⟨t, by rw [exec_combine hc hi, ht, settle_ok], ?_, fun j hj => ?_, krest, ?_, fun h0 => ?_, fun h0 => kblock ?_⟩
  · have hpos : t.pos = s.len := BitVec.eq_of_toNat_eq kpos
    have hframe := combineBuffer_frame ht
    rwa [hpos] at hframe
  · obtain ⟨-, v, hv, hw⟩ := kout j hj
    obtain rfl : b j = v := Option.some.inj ((hin j hj).symm.trans hv)
    rw [hw, ks_eq_keystream _ (Nat.mod_lt _ (by decide)), xor8]
  · rw [kctr, BitVec.toNat_add, BitVec.toNat_ofNat, Nat.add_mod_mod]
  · rw [kzero (by rw [h0]; rfl)]
    exact ⟨rfl, rfl, rfl⟩
  · exact fun hz => h0 (BitVec.eq_of_toNat_eq hz)

end Sys2Proof.Machine
end

section
/-! SUPPORT. The host's actions that issue a decoded command: while the host writes KEY or IN (spec/20_memory.md R61), and with
IN and OUT on one storage (R66). -/

namespace Sys2Proof.Machine

open Sys2Proof.Claims

/-- The decoder reads from a command's word that command (spec/30_encoding.md R74). -/
theorem decode_encode (i : Instr) : decode (encode i) = .command i := by
  have hop : opField (encode i) = i.op.code := by rw [encode_eq_pack, opField_pack]
  have hfields : fieldsOf (encode i) = i.fields := by rw [encode_eq_pack, fieldsOf_pack]
  have hmask : encode i &&& i.op.format.mask = i.op.matchWord := Laws.WordShape.of_fields i
  simp only [decode, hop, Op.ofCode_code, hmask, if_true, hfields, Op.build_fields]

theorem runWord_encode (i : Instr) : runWord (encode i) = exec i :=
  funext fun s => by simp only [runWord, decode_encode]

theorem consume_of_pending {s : State} {e : HostEvent} {rest : List HostEvent} (h : s.pending = e :: rest) :
    s.consume = { s with pending := rest } := by
  rw [State.consume, h, List.tail_cons]

theorem step_whileHostWrites {s : State} {i : Instr} {key inp : Memory} {rest : List HostEvent}
    (h : s.pending = .commandWhileHostWrites (encode i) key inp :: rest) :
    step s = drawing key inp (exec i) { s with pending := rest } := by
  rw [step, h]
  simp only [runWhileHostWrites, runWord_encode, consume_of_pending h]

theorem step_inPlace {s : State} {i : Instr} {rest : List HostEvent} (h : s.pending = .commandInPlace (encode i) :: rest) :
    step s = inOneStorage (exec i) { s with pending := rest } := by
  rw [step, h]
  simp only [runInPlace, runWord_encode, consume_of_pending h]

/-- The table of faults does not look at the host's list. -/
theorem reachesNoMemory_of_pending {i : Instr} {s : State} (h : ReachesNoMemory i s) (rest : List HostEvent) :
    ReachesNoMemory i { s with pending := rest } := by
  have hfault : faultOf i { s with pending := rest } = faultOf i s := by cases i <;> rfl
  exact h.imp_right fun h => h.imp_right fun h => hfault.trans_ne h

/-- A command that reaches no memory does, while the host writes, what it does undisturbed. -/
theorem drawing_of_reachesNoMemory {i : Instr} {s : State} (h : ReachesNoMemory i s) (key inp : Memory) :
    drawing key inp (exec i) s = exec i s := by
  have hdrawn : exec i { s with key := key, inp := inp } = withMemories key inp s.out (exec i s) :=
    exec_withMemories h key inp s.out
  rw [drawing, hdrawn]
  cases ht : exec i s with
  | next t =>
    show Host.Outcome.next (t.withMemories s.key s.inp s.out) = .next t
    rw [h.frame ht]
  | fault f => rfl
  | refused r => rfl

end Sys2Proof.Machine
end

section
/-! The obligations of spec/20_memory.md. -/

namespace Sys2Proof.Proofs

open Sys2Proof Sys2Proof.Machine Sys2Proof.Claims

/-- Settles O38: the byte loop stops at the first access it is refused, the read of a byte before its write. -/
theorem xorkIsStuckAtRefusedAccess : Obligations.XorkIsStuckAtRefusedAccess := by
  unfold Obligations.XorkIsStuckAtRefusedAccess
  intro m s k hc hi hm hle hk hbefore
  obtain ⟨hread, hwrite⟩ := combineBytes_stuck (o := s.o) (out := s.out) hk hbefore
  rw [exec_xork hc hi hm hle]
  exact ⟨fun hn => by simp only [xorBytes, hread hn, settle_error],
    fun hsome hroom => by simp only [xorBytes, hwrite hsome hroom, settle_error]⟩

/-- Settles O39: the three commands that can be stuck, each at an address of the range it reads or writes. -/
theorem onlyRefusedAccessesStop : Obligations.OnlyRefusedAccessesStop := by
  unfold Obligations.OnlyRefusedAccessesStop
  refine fun i s => ⟨exec_ne_refused i s, fun f h => ?_⟩
  have hs := stuckAt_of_exec h
  cases i with
  | init klen =>
    obtain ⟨rfl, hf⟩ := hs
    obtain ⟨a, ha, rfl, hn⟩ := memReadBytes_error hf
    exact ⟨_, _, rfl, .inl ⟨rfl, rfl, by omega, hn⟩⟩
  | xork m =>
    obtain ⟨hl, hf⟩ := hs
    obtain ⟨-, hle⟩ := (lengthAllowed_iff s m).1 hl
    obtain ⟨k, hk, ⟨rfl, hn⟩ | ⟨rfl, hroom⟩⟩ := xorBytes_error hf
    · exact ⟨_, _, rfl, .inr ⟨.inl ⟨m, rfl, by omega, by omega⟩, by omega, .inl ⟨rfl, hn⟩⟩⟩
    · exact ⟨_, _, rfl, .inr ⟨.inl ⟨m, rfl, by omega, by omega⟩, by omega, .inr ⟨rfl, hroom⟩⟩⟩
  | combine =>
    obtain ⟨j, hj, ⟨rfl, hn⟩ | ⟨rfl, hroom⟩⟩ := combineBuffer_error s.len.isLt hs
    · exact ⟨_, _, rfl, .inr ⟨.inr rfl, hj, .inl ⟨rfl, hn⟩⟩⟩
    · exact ⟨_, _, rfl, .inr ⟨.inr rfl, hj, .inr ⟨rfl, hroom⟩⟩⟩
  | _ => exact hs.elim

/-- Settles O44: no byte is read after the loop has overwritten it. -/
theorem inPlaceGivesSameBytes : Obligations.InPlaceGivesSameBytes :=
  combineBytesInPlace_eq

/-- Settles O48: only `XORK` and `COMBINE` write OUT, and both below `LEN`. -/
theorem outBeyondLengthUntouched : Obligations.OutBeyondLengthUntouched := by
  unfold Obligations.OutBeyondLengthUntouched
  intro i s t h a ha
  rcases exec_next h with ⟨-, rfl⟩ | ⟨-, c, info, -, rfl⟩ | hp
  · rfl
  · rfl
  · rcases (performs_writesOnlyItsOwn hp).out with hop | hout
    · cases i with
      | xork m =>
        obtain ⟨-, hl, hx⟩ := hp
        obtain ⟨-, hle⟩ := (lengthAllowed_iff s m).1 hl
        obtain ⟨out', hb, rfl⟩ := xorBytes_ok hx
        obtain ⟨-, hrest, -⟩ := combineBytes_ok hb
        exact hrest a (.inr (by omega))
      | combine =>
        obtain ⟨-, hx⟩ := hp
        obtain ⟨-, -, -, -, hrest, -⟩ := combineBuffer_ok hx s.len.isLt
        exact hrest a ha
      | _ => simp [Instr.op] at hop
    · rw [hout]

/-- Settles O45: `COMBINE` on a copy of IN, whose result both spaces then hold. -/
theorem inPlaceCombineReplacesBuffer : Obligations.InPlaceCombineReplacesBuffer := by
  unfold Obligations.InPlaceCombineReplacesBuffer
  intro s b rest hp hc hi hin hroom
  obtain ⟨t, ht, k⟩ := exec_combine_of_bytes (s := { s with out := s.inp, pending := rest }) hc hi hin hroom
  refine ⟨{ t with inp := t.out }, ?_, rfl, ?_, ?_, k.ctr, fun j hj => ?_, k.rest⟩
  · rw [step_inPlace hp]
    exact inOneStorage_next.2 ⟨t, ht, rfl⟩
  · rw [k.frame]
  · rw [k.frame]
  · rw [blockAt_o hc hi]
    exact k.bytes j hj

/-- Settles O17: what the command does on provided bytes, with the drawn ones in their place. -/
theorem disturbedReadsAreFreeDraws : Obligations.DisturbedReadsAreFreeDraws := by
  unfold Obligations.DisturbedReadsAreFreeDraws
  intro s key inp rest d
  refine ⟨fun m hp hc hi hm hle hin => ?_, fun hp hc hi hin hroom => ?_, fun hp hc hin => ?_, fun i hp h => ?_⟩
  · obtain ⟨out, ht, hbytes, hrest⟩ :=
      exec_xork_of_bytes (s := { s with key := key, inp := inp, pending := rest }) hc hi hm hle hin
    refine ⟨out, ?_, hbytes, hrest⟩
    rw [step_whileHostWrites hp]
    exact drawing_next.2 ⟨_, ht, rfl⟩
  · obtain ⟨t, ht, k⟩ := exec_combine_of_bytes (s := { s with key := key, inp := inp, pending := rest }) hc hi hin hroom
    refine ⟨{ t with key := s.key, inp := s.inp }, ?_, ?_, fun j hj => ?_, k.rest, k.ctr, k.empty, fun h0 => ?_⟩
    · rw [step_whileHostWrites hp]
      exact drawing_next.2 ⟨t, ht, rfl⟩
    · rw [k.frame]
    · rw [blockAt_o hc hi]
      exact k.bytes j hj
    · exact HoldsBlock.matrices_eq (k.block h0) (holdsBlock_blockAt hc hi _)
  · have ht := exec_init_of_key (s := { s with key := key, inp := inp, pending := rest }) hc fun a ha => by
      rw [hin a ha]
      rfl
    rw [keyOf_eq hin] at ht
    have hstep := (step_whileHostWrites hp).trans (drawing_next.2 ⟨_, ht, rfl⟩)
    exact ⟨_, hstep, rfl, initialMatrix_eq s.cfg d⟩
  · rw [step_whileHostWrites hp]
    exact drawing_of_reachesNoMemory (reachesNoMemory_of_pending h rest) key inp

/-- Settles O49: a command that reaches no memory does not see the change, and the three that reach one find the bytes of their
range unchanged. -/
theorem onlyTheBuffersAreRead : Obligations.OnlyTheBuffersAreRead := by
  unfold Obligations.OnlyTheBuffersAreRead
  intro i s t key inp out hkey hinp h
  by_cases hr : ReachesNoMemory i s
  · have ht : t.out = s.out := by rw [← hr.frame h]; rfl
    refine ⟨out, ?_, fun a => .inr ⟨by rw [ht], rfl⟩⟩
    have h' := exec_withMemories hr key inp out
    rwa [h] at h'
  · obtain ⟨hc, hop, hp⟩ := performs_of_reaches h hr
    obtain ⟨out', hp', hsame⟩ := performs_withMemories out hop hp hkey hinp
    exact ⟨out', exec_of_performs (s := s.withMemories key inp out) hc hop hp', hsame⟩

end Sys2Proof.Proofs
end

section
/-! SUPPORT. The decoder by the rows of the opcode map (spec/30_encoding.md R73, R74): a command is read from a word that matches
a row, and the words that match none are the ones R75 lists. -/

namespace Sys2Proof

open Sys2Proof.Claims

theorem Op.op_build (o : Op) (f : Fields) : (o.build f).op = o := by
  cases o <;> rfl

/-- The fields that `build` leaves out are the ones the format does not use. -/
theorem Op.fields_build {o : Op} {f : Fields} (h : o.format.unusedZero f) : (o.build f).fields = f := by
  cases f
  cases o <;> simp_all [Op.format, Format.unusedZero, Op.build, Instr.fields, noFields]

/-- The value of `op` alone says which row a word can match. -/
theorem Op.ofCode_of_masked {cw : CommandWord} {o : Op} (h : cw &&& o.format.mask = o.matchWord) :
    Op.ofCode (opField cw) = some o := by
  rw [((masked_iff cw o _).1 h).1, Op.ofCode_code]

/-- The decoder answers the command of the row that the word matches. -/
theorem decode_eq_command_iff {cw : CommandWord} {i : Instr} :
    decode cw = .command i ↔ ∃ o : Op, cw &&& o.format.mask = o.matchWord ∧ o.build (fieldsOf cw) = i := by
  constructor
  · intro h
    unfold decode at h
    split at h
    · cases h
    · next o _ =>
      split at h
      · next hm => exact ⟨o, hm, Decoded.command.inj h⟩
      · cases h
  · rintro ⟨o, hm, rfl⟩
    simp only [decode, Op.ofCode_of_masked hm, hm, if_true]

/-- The decoder is total, so it refuses a word exactly when no row is matched. -/
theorem decode_illegal_iff {cw : CommandWord} :
    (∃ why, decode cw = .illegal why) ↔ ∀ o : Op, cw &&& o.format.mask ≠ o.matchWord := by
  cases h : decode cw with
  | command i =>
    obtain ⟨o, hm, -⟩ := decode_eq_command_iff.1 h
    simpa using ⟨o, hm⟩
  | illegal why =>
    refine iff_of_true ⟨why, rfl⟩ fun o hm => ?_
    exact nomatch h.symm.trans (decode_eq_command_iff.2 ⟨o, hm, rfl⟩)

/-- A word that matches a row is the encoding of the command read from it: the row gives `op`, and the fields of the word that the
command does not hold are zero. -/
theorem encode_build {cw : CommandWord} {o : Op} (h : cw &&& o.format.mask = o.matchWord) :
    encode (o.build (fieldsOf cw)) = cw := by
  obtain ⟨hop, hrsv, hunused⟩ := (masked_iff cw o _).1 h
  rw [encode_eq_pack, Op.op_build, Op.fields_build hunused, ← hop, ← hrsv]
  exact pack_fields cw

/-- With an opcode of the list, R75 asks for a nonzero `rsv` or a nonzero unused field. -/
theorem illegalByFields_iff_of_code {cw : CommandWord} {o : Op} (h : opField cw = o.code) :
    IllegalByFields cw ↔ ¬(rsvField cw = 0 ∧ o.format.unusedZero (fieldsOf cw)) := by
  have hop : cw.extractLsb' 56 8 = o.code := h
  simp only [IllegalByFields, hop, rsvField, fieldsOf]
  cases o <;> simp [Op.code, Op.format, Format.unusedZero, not_and_or, -not_and]

/-- The opcodes R75 admits are those of the rows. -/
theorem illegalByFields_of_no_code {cw : CommandWord} (h : ∀ o : Op, opField cw ≠ o.code) : IllegalByFields cw := by
  refine .inl fun hmem => ?_
  obtain ⟨o, -, ho⟩ := List.mem_map.1 (show opField cw ∈ Op.rows.map Op.code from hmem)
  exact h o ho.symm

/-- The words R75 lists are those that match no row. -/
theorem illegalByFields_iff {cw : CommandWord} :
    IllegalByFields cw ↔ ∀ o : Op, cw &&& o.format.mask ≠ o.matchWord := by
  simp only [ne_eq, masked_iff]
  by_cases h : ∃ o : Op, opField cw = o.code
  · obtain ⟨o, ho⟩ := h
    rw [illegalByFields_iff_of_code ho]
    refine ⟨fun hn o' ⟨ho', hz⟩ => hn ?_, fun hall hz => hall o ⟨ho, hz⟩⟩
    have hsame : o = o' := Option.some.inj (by rw [← Op.ofCode_code, ← Op.ofCode_code, ← ho, ← ho'])
    exact hsame ▸ hz
  · have hno : ∀ o : Op, opField cw ≠ o.code := fun o ho => h ⟨o, ho⟩
    exact iff_of_true (illegalByFields_of_no_code hno) fun o ⟨ho, _⟩ => hno o ho

end Sys2Proof
end

section
/-! SUPPORT. Fault entry as the statements write it (spec/60_exceptions.md R165), and a step that issues a command word. -/

namespace Sys2Proof.Machine

open Sys2Proof.Claims

theorem faultsWith_raise (c : Cause) (info : Word) (s : State) : FaultsWith (.next (raise c info s)) s c.code info :=
  ⟨_, rfl, rfl, fun k hk => getLsbD_setCause s.status c.code k hk⟩

theorem step_command {s : State} {cw : CommandWord} {rest : List HostEvent} (h : s.pending = .command cw :: rest) :
    step s = runWord cw { s with pending := rest } := by
  rw [step, h, ← consume_of_pending h]

theorem runWord_of_illegal {cw : CommandWord} {s : State} (h : ∃ why, decode cw = .illegal why) :
    runWord cw s = illegalWord cw s := by
  obtain ⟨why, hd⟩ := h
  simp only [runWord, hd]

theorem faultsWith_illegalWord (cw : CommandWord) {s : State} (hc : s.cause = 0) :
    FaultsWith (illegalWord cw s) s 2 (upperHalf cw) := by
  rw [illegalWord, unlessFaulted_of_ready hc]
  exact faultsWith_raise .illegalCommand (upperHalf cw) s

end Sys2Proof.Machine
end

section
/-! The obligations of spec/30_encoding.md. -/

namespace Sys2Proof.Proofs

open Sys2Proof Sys2Proof.Machine Sys2Proof.Claims

/-- Settles O2: the command's word has the fields it was put together from, and they match the command's row. -/
theorem decodeOfEncode : Obligations.DecodeOfEncode :=
  decode_encode

/-- Settles O3: the word matches a row, and the command that row builds from it has that word. -/
theorem encodeOfDecode : Obligations.EncodeOfDecode := by
  unfold Obligations.EncodeOfDecode
  intro cw i h
  obtain ⟨o, hm, rfl⟩ := decode_eq_command_iff.1 h
  exact encode_build hm

/-- Settles O4: both sides say that the word matches no row. -/
theorem illegalWordsAreThoseListed : Obligations.IllegalWordsAreThoseListed :=
  fun _ => decode_illegal_iff.trans illegalByFields_iff.symm

/-- Settles O6: the decoder refuses the word, and what the unit then does is fault entry. -/
theorem illegalWordFaults : Obligations.IllegalWordFaults := by
  unfold Obligations.IllegalWordFaults
  refine ⟨fun s cw rest hp hill hc => ?_, by unfold IllegalByFields; decide, by unfold IllegalByFields; decide⟩
  rw [step_command hp, runWord_of_illegal ((illegalWordsAreThoseListed cw).2 hill)]
  exact faultsWith_illegalWord cw hc

/-- Settles O1, by running the decoder on the eleven words. -/
theorem specWordsDecode : Obligations.SpecWordsDecode := by
  unfold Obligations.SpecWordsDecode
  decide

end Sys2Proof.Proofs
end

section
/-! SUPPORT. The command word of a command as a number: its opcode and its operands, each shifted to its place
(spec/30_encoding.md R70). -/

namespace Sys2Proof

theorem pack_eq_or (op : BitVec 8) (a b c d : BitVec 4) (imm : Word) :
    pack op 0 a b c d imm = op.setWidth 64 <<< 56 ||| a.setWidth 64 <<< 44 ||| b.setWidth 64 <<< 40 |||
      c.setWidth 64 <<< 36 ||| d.setWidth 64 <<< 32 ||| imm.setWidth 64 := by
  apply BitVec.eq_of_getLsbD_eq
  intro k hk
  simp only [getLsbD_pack, BitVec.getLsbD_or, BitVec.getLsbD_shiftLeft, BitVec.getLsbD_setWidth]
  split_ifs <;>
    simp (disch := omega) only [decide_eq_true, decide_eq_false, BitVec.getLsbD_of_ge, BitVec.ofNat_eq_ofNat,
      BitVec.getLsbD_zero, Bool.not_true, Bool.not_false, Bool.and_false, Bool.false_and, Bool.true_and, Bool.or_false,
      Bool.false_or]

theorem encode_eq_or (i : Instr) :
    encode i = i.op.code.setWidth 64 <<< 56 ||| i.fields.a.setWidth 64 <<< 44 ||| i.fields.b.setWidth 64 <<< 40 |||
      i.fields.c.setWidth 64 <<< 36 ||| i.fields.d.setWidth 64 <<< 32 ||| i.fields.imm.setWidth 64 := by
  rw [encode_eq_pack, pack_eq_or]

/-- A 4-bit operand, read as an unsigned number (R72). -/
theorem setWidth_ofFin (x : Fin 16) : (BitVec.ofFin (w := 4) x).setWidth 64 = BitVec.ofNat 64 x.val :=
  BitVec.eq_of_toNat_eq (by simp only [BitVec.toNat_setWidth, BitVec.toNat_ofFin, BitVec.toNat_ofNat])

end Sys2Proof
end

section
/-! SUPPORT. The commands that raise a fault, and those that the fault state ignores (spec/60_exceptions.md R161, R168). -/

namespace Sys2Proof.Machine

open Sys2Proof.Claims

theorem faultOf_xork_of_allowed {m : Word} {s : State} (hi : s.inited = true) (hl : lengthAllowed s m = true) :
    faultOf (.xork m) s = none := by
  obtain ⟨hm, hle⟩ := (lengthAllowed_iff s m).1 hl
  simp [faultOf, hi, hm, hle]

/-- A command that performs its work raises no fault of the table. -/
theorem faultOf_of_performs {i : Instr} {s t : State} (h : Performs s t i) : faultOf i s = none := by
  cases i with
  | init klen => exact if_pos h.1
  | wrcr cr imm =>
    have hcr : cr.val ≤ 5 := (writeCR_isSome_iff s cr imm).1 (Option.isSome_iff_exists.2 ⟨t, h⟩)
    exact if_neg (by omega)
  | rdcr cr =>
    obtain ⟨v, hv, -⟩ := h
    have hcr : cr.val ≤ 10 := (readCR_isSome_iff s cr).1 (Option.isSome_iff_exists.2 ⟨v, hv⟩)
    exact if_neg (by omega)
  | rdm a sel =>
    obtain ⟨m, hm, -⟩ := h
    have hsel : sel.val ≤ 2 := (selectMatrix_isSome_iff s sel).1 (Option.isSome_iff_exists.2 ⟨m, hm⟩)
    exact if_neg (by omega)
  | qr a b c d => exact if_pos ((nodup_cells_iff a b c d).2 h.1)
  | ctrw | ldw | ffwd | block | combine => exact if_pos h.1
  | xork m =>
    obtain ⟨hi, hl, -⟩ := h
    exact faultOf_xork_of_allowed hi hl
  | setw | colrnd | rowrnd | dblrnd | perm | ctrinc => rfl

/-- A command that the table gives a fault makes no access: its checks come first (R167). -/
theorem exec_ne_fault_of_faultOf {i : Instr} {s : State} (hc : s.cause = 0) (hf : faultOf i s ≠ none) (f : Fault) :
    exec i s ≠ .fault f := by
  intro h
  have hstuck := stuckAt_of_exec h
  cases i with
  | init klen => exact hf (if_pos hstuck.1)
  | xork m =>
    cases hi : s.inited with
    | true => exact hf (faultOf_xork_of_allowed hi hstuck.1)
    | false =>
      simp only [exec, execXork, unlessFaulted_of_ready hc, whenInited_of_not hi] at h
      cases h
  | combine =>
    have hi : s.inited = false := Bool.eq_false_iff.2 fun hi => hf (if_pos hi)
    simp only [exec, execCombine, unlessFaulted_of_ready hc, whenInited_of_not hi] at h
    cases h
  | _ => exact hstuck

/-- The fault the table gives a command is the one it enters (R161, R165). -/
theorem faultsWith_of_faultOf {i : Instr} {s : State} {code : BitVec 4} {info : Word} (hc : s.cause = 0)
    (hf : faultOf i s = some (code, info)) : FaultsWith (exec i s) s code info := by
  rcases exec_endsOr i s with ⟨t, ht⟩ | ⟨f, ht, -⟩
  · rcases exec_next ht with ⟨hs, -⟩ | ⟨-, c, info', hf', rfl⟩ | hp
    · exact absurd hc hs
    · cases hf.symm.trans hf'
      rw [ht]
      exact faultsWith_raise c info s
    · exact nomatch hf.symm.trans (faultOf_of_performs hp)
  · exact absurd ht (exec_ne_fault_of_faultOf hc (by simp [hf]) f)

/-- In the fault state a command has no effect at all, unless it is a legal `RDCR` or `RDM` (R168). -/
theorem exec_of_faulted {i : Instr} {s : State} (hs : s.faulted) (hi : readsInFaultState i = false) :
    exec i s = .next s := by
  cases i with
  | rdcr cr =>
    have hcr : ¬ cr.val ≤ 10 := of_decide_eq_false hi
    have hr : readCR s cr = none := by simpa [hcr] using readCR_isSome_iff s cr
    simp only [exec, execRdcr, hr, unlessFaulted_of_faulted hs]
  | rdm a sel =>
    have hsel : ¬ sel.val ≤ 2 := of_decide_eq_false hi
    have hm : selectMatrix s sel = none := by simpa [hsel] using selectMatrix_isSome_iff s sel
    simp only [exec, execRdm, hm, unlessFaulted_of_faulted hs]
  | init | wrcr | setw | qr | colrnd | rowrnd | dblrnd | perm | ctrw | ldw | ffwd | block | ctrinc | xork | combine =>
    exact unlessFaulted_of_faulted hs _

/-! Access to registers and cells past the checks (spec/40_matrix_and_init.md R92, R93, R95). -/

theorem exec_wrcr {s t : State} {cr : Fin 16} {imm : Word} (hc : s.cause = 0) (h : writeCR s cr imm = some t) :
    exec (.wrcr cr imm) s = .next t := by
  simp only [exec, execWrcr, unlessFaulted_of_ready hc, h]

theorem exec_rdcr {s : State} {cr : Fin 16} {v : Word} (h : readCR s cr = some v) :
    exec (.rdcr cr) s = .next { s with rdata := v } := by
  simp only [exec, execRdcr, h]

theorem exec_rdm {s : State} {a : Cell} {sel : Fin 16} {m : WordMatrix} (h : selectMatrix s sel = some m) :
    exec (.rdm a sel) s = .next { s with rdata := cellOf m a } := by
  simp only [exec, execRdm, h]

end Sys2Proof.Machine
end

section
/-! The obligations of spec/40_matrix_and_init.md. -/

namespace Sys2Proof.Proofs

open Sys2Proof Sys2Proof.Machine Sys2Proof.Claims

/-- Settles O18: the key bytes are provided, so `INIT 32` reads them all, and the layout of the matrix it builds is
`initialMatrix_eq`. -/
theorem initBuildsInitialMatrix : Obligations.InitBuildsInitialMatrix := by
  unfold Obligations.InitBuildsInitialMatrix
  refine ⟨fun klen => ?_, fun s b hc hk => ?_, fun s klen hc hk => ?_⟩
  · simp [encode_eq_or, Instr.op, Op.code, Instr.fields, noFields]
  · have ht := exec_init_of_key hc fun a ha => by
      rw [hk a ha]
      rfl
    rw [keyOf_eq hk] at ht
    exact ⟨_, ht, rfl, initWith_inited _ s, initialMatrix_eq s.cfg b⟩
  · exact faultsWith_of_faultOf hc (if_neg hk)

/-- Settles O5: the host's action is the command word, and the decoder reads the command from it. -/
theorem stepRunsDecodedCommand : Obligations.StepRunsDecodedCommand := by
  unfold Obligations.StepRunsDecodedCommand
  intro s cw rest i hp hd
  rw [step_command hp]
  simp only [runWord, hd]

/-- Settles O19: a writable number writes its half, and any other is a fault of the table. -/
theorem wrcrWritesOneRegister : Obligations.WrcrWritesOneRegister := by
  unfold Obligations.WrcrWritesOneRegister
  refine ⟨fun cr imm => ?_, fun s imm hc => ⟨exec_wrcr hc rfl, exec_wrcr hc rfl, exec_wrcr hc rfl, exec_wrcr hc rfl,
    exec_wrcr hc rfl, exec_wrcr hc rfl, fun cr hcr => ?_⟩⟩
  · simp [encode_eq_or, setWidth_ofFin, Instr.op, Op.code, Instr.fields, noFields]
  · exact faultsWith_of_faultOf hc (if_pos hcr)

/-- Settles O20: a defined number is read in every state, and a reserved one is a fault of the table, or ignored. -/
theorem rdcrCopiesRegister : Obligations.RdcrCopiesRegister := by
  unfold Obligations.RdcrCopiesRegister
  refine ⟨fun cr => ?_, fun s => ⟨exec_rdcr rfl, exec_rdcr rfl, exec_rdcr rfl, exec_rdcr rfl, exec_rdcr rfl, exec_rdcr rfl,
    exec_rdcr rfl, exec_rdcr rfl, exec_rdcr rfl, exec_rdcr rfl, exec_rdcr rfl, fun cr hcr => ⟨fun hc => ?_, fun hs => ?_⟩⟩⟩
  · simp [encode_eq_or, setWidth_ofFin, Instr.op, Op.code, Instr.fields, noFields]
  · exact faultsWith_of_faultOf hc (if_pos hcr)
  · exact exec_of_faulted hs (decide_eq_false (by omega))

/-- Settles O21: outside the fault state `SETW` has no other check. -/
theorem setwWritesOneCell : Obligations.SetwWritesOneCell := by
  unfold Obligations.SetwWritesOneCell
  refine fun a imm => ⟨?_, fun s hc => ⟨{ s with w := setCell s.w a imm }, unlessFaulted_of_ready hc _, rfl, ?_, ?_⟩⟩
  · simp [encode_eq_or, setWidth_ofFin, Instr.op, Op.code, Instr.fields, noFields]
  · exact cellOf_setCell_same s.w a imm
  · exact fun j hj => cellOf_setCell_other s.w imm hj

/-- Settles O22: a selector of a matrix is read in every state, and any other is a fault of the table, or ignored. -/
theorem rdmCopiesCell : Obligations.RdmCopiesCell := by
  unfold Obligations.RdmCopiesCell
  refine fun a s => ⟨fun sel => ?_, exec_rdm rfl, exec_rdm rfl, exec_rdm rfl, fun sel hsel => ⟨fun hc => ?_, fun hs => ?_⟩⟩
  · simp [encode_eq_or, setWidth_ofFin, Instr.op, Op.code, Instr.fields, noFields]
  · exact faultsWith_of_faultOf hc (if_pos hsel)
  · exact exec_of_faulted hs (decide_eq_false (by omega))

end Sys2Proof.Proofs
end

section
/-! SUPPORT. The quarter round as a function of the matrix (spec/41_quarter_round.md R110 to R112): the value of each of its cells
by the values before it, and its inverse, the same ARX steps in the opposite order. -/

namespace Sys2Proof.Machine

/-- The model's rotation, for the distances the quarter round uses, is the library's (R9). -/
theorem rotl32_eq_rotateLeft (x : Word) {r : Nat} (h : r < 32) : rotl32 x r = x.rotateLeft r := by
  simp only [rotl32, BitVec.rotateLeft_def, Nat.mod_eq_of_lt h]

theorem xor32_xor32_cancel (x y : Word) : xor32 (xor32 x y) y = x := by
  simp only [xor32, BitVec.xor_assoc, BitVec.xor_self, BitVec.xor_zero]

/-- An ARX step whose target is not one of its sources undoes itself. -/
theorem arx_arx (m : WordMatrix) {t u v : Cell} (hu : u ≠ t) (hv : v ≠ t) (r : Nat) :
    arx (arx m t u v r) t u v r = m := by
  apply matrix_ext
  intro j
  simp only [cellOf_arx, if_neg hu, if_neg hv, if_true, xor32_xor32_cancel]
  split
  · next hj => rw [hj]
  · rfl

/-- So the step can be moved to the other side of an equation. -/
theorem arx_eq_iff {m n : WordMatrix} {t u v : Cell} (hu : u ≠ t) (hv : v ≠ t) (r : Nat) :
    arx m t u v r = n ↔ m = arx n t u v r :=
  Function.Involutive.eq_iff (f := fun m => arx m t u v r) fun m => arx_arx m hu hv r

/-- The four ARX steps of the quarter round, the last one first. -/
def quarterRoundInverse (m : WordMatrix) (a b c d : Cell) : WordMatrix :=
  let m := arx m a d c 18
  let m := arx m d c b 13
  let m := arx m c b a 9
  arx m b a d 7

/-- On distinct cells every matrix is the result of one quarter round only, and its inverse computes which (R112). -/
theorem quarterRound_eq_iff {m n : WordMatrix} {a b c d : Cell} (h : distinctCells a b c d = true) :
    quarterRound m a b c d = n ↔ m = quarterRoundInverse n a b c d := by
  obtain ⟨hab, hac, had, hbc, hbd, hcd⟩ := (distinctCells_iff a b c d).1 h
  simp only [quarterRound, quarterRoundInverse]
  rw [arx_eq_iff had.symm hac.symm, arx_eq_iff hcd hbd, arx_eq_iff hbc hac, arx_eq_iff hab hbd.symm]

/-- The values of the four cells in the order b, c, d, a: each is given by the new values before it and by the old ones
(R111). -/
theorem quarterRound_values (m : WordMatrix) {a b c d : Cell} (h : distinctCells a b c d = true) :
    let n := quarterRound m a b c d
    cellOf n b = xor32 (cellOf m b) (rotl32 (add32 (cellOf m a) (cellOf m d)) 7) ∧
      cellOf n c = xor32 (cellOf m c) (rotl32 (add32 (cellOf n b) (cellOf m a)) 9) ∧
      cellOf n d = xor32 (cellOf m d) (rotl32 (add32 (cellOf n c) (cellOf n b)) 13) ∧
      cellOf n a = xor32 (cellOf m a) (rotl32 (add32 (cellOf n d) (cellOf n c)) 18) := by
  obtain ⟨hab, hac, had, hbc, hbd, hcd⟩ := (distinctCells_iff a b c d).1 h
  simp only [cellOf_quarterRound m h, if_neg hab.symm, if_neg hac.symm, if_neg had.symm, if_neg hbc.symm, if_neg hbd.symm,
    if_neg hcd.symm, if_true, and_self]

theorem cellOf_quarterRound_other (m : WordMatrix) {a b c d j : Cell} (h : distinctCells a b c d = true)
    (hj : j ∉ [a, b, c, d]) : cellOf (quarterRound m a b c d) j = cellOf m j := by
  simp only [List.mem_cons, List.not_mem_nil, or_false, not_or] at hj
  obtain ⟨ha, hb, hc, hd⟩ := hj
  simp only [cellOf_quarterRound m h, if_neg ha, if_neg hb, if_neg hc, if_neg hd]

/-- Past its checks `QR` writes the working matrix only (R111). -/
theorem exec_qr {s : State} {a b c d : Cell} (hc : s.cause = 0) (h : distinctCells a b c d = true) :
    exec (.qr a b c d) s = .next { s with w := quarterRound s.w a b c d } := by
  simp only [exec, execQr, unlessFaulted_of_ready hc, if_pos h]

end Sys2Proof.Machine
end

section
/-! The obligations of spec/41_quarter_round.md. -/

namespace Sys2Proof.Proofs

open Sys2Proof Sys2Proof.Machine Sys2Proof.Claims

/-- Settles O23: on distinct cells the new working matrix is the quarter round's, and other operands are a fault of the table. -/
theorem qrUpdatesFourCells : Obligations.QrUpdatesFourCells := by
  unfold Obligations.QrUpdatesFourCells
  refine fun a b c d => ⟨?_, fun s hc => ⟨fun hnodup => ?_, fun hnodup => ?_⟩⟩
  · simp [encode_eq_or, setWidth_ofFin, Instr.op, Op.code, Instr.fields, noFields]
  · have hd := (nodup_cells_iff a b c d).1 hnodup
    obtain ⟨vb, vc, vd, va⟩ := quarterRound_values s.w hd
    rw [rotl32_eq_rotateLeft _ (by decide)] at vb vc vd va
    exact ⟨_, exec_qr hc hd, rfl, vb, vc, vd, va, fun j hj => cellOf_quarterRound_other s.w hd hj⟩
  · exact faultsWith_of_faultOf hc (if_neg hnodup)

/-- Settles O24: `QR` answers the state with the matrix `m` exactly when the working matrix is the inverse quarter round of
`m`. -/
theorem qrIsBijective : Obligations.QrIsBijective := by
  unfold Obligations.QrIsBijective
  intro a b c d s hc hnodup m
  have hd := (nodup_cells_iff a b c d).1 hnodup
  have hexec (w : WordMatrix) : exec (.qr a b c d) { s with w := w } = .next { s with w := quarterRound w a b c d } :=
    exec_qr (s := { s with w := w }) hc hd
  refine ⟨quarterRoundInverse m a b c d, ?_, fun w' hw' => ?_⟩
  · rw [hexec, (quarterRound_eq_iff hd).2 rfl]
  · have hm : quarterRound w' a b c d = m := congrArg State.w (Host.Outcome.next.inj ((hexec w').symm.trans hw'))
    exact (quarterRound_eq_iff hd).1 hm

end Sys2Proof.Proofs
end

section
/-! SUPPORT. Quarter rounds one after another as one fold over the matrix, and on disjoint cells in any order
(spec/42_permutation_core.md R131, spec/70_reset_and_hazards.md R185). -/

namespace Sys2Proof.Machine

open Sys2Proof.Claims

theorem inTurn_cons_of_next {i : Instr} {rest : List Instr} {s t : State} (h : exec i s = .next t) :
    inTurn (i :: rest) s = inTurn rest t := by
  simp only [inTurn, h]

/-- The cells that a `QR` names; no other command is a lane of a pass. -/
def qrCells : Instr → List Cell
  | .qr a b c d => [a, b, c, d]
  | _ => []

/-- The matrix after a lane. -/
def runLane (m : WordMatrix) : Instr → WordMatrix
  | .qr a b c d => quarterRound m a b c d
  | _ => m

/-- A `QR` whose checks pass. -/
def IsLane (i : Instr) : Prop :=
  qrCells i ≠ [] ∧ (qrCells i).Nodup

theorem IsLane.exists_qr {i : Instr} (h : IsLane i) : ∃ a b c d, i = .qr a b c d ∧ distinctCells a b c d = true := by
  cases i with
  | qr a b c d => exact ⟨a, b, c, d, rfl, (nodup_cells_iff a b c d).1 h.2⟩
  | _ => exact absurd rfl h.1

theorem exec_lane {i : Instr} {s : State} (h : IsLane i) (hc : s.cause = 0) :
    exec i s = .next { s with w := runLane s.w i } := by
  obtain ⟨a, b, c, d, rfl, hd⟩ := h.exists_qr
  exact exec_qr hc hd

theorem inTurn_lanes {l : List Instr} {s : State} (h : ∀ i ∈ l, IsLane i) (hc : s.cause = 0) :
    inTurn l s = .next { s with w := l.foldl runLane s.w } := by
  induction l generalizing s with
  | nil => rfl
  | cons i rest ih =>
    obtain ⟨hi, hrest⟩ := List.forall_mem_cons.1 h
    rw [inTurn_cons_of_next (exec_lane hi hc)]
    exact ih hrest hc

/-- A lane leaves the cells it does not name. -/
theorem cellOf_runLane_other (m : WordMatrix) {i : Instr} {j : Cell} (h : IsLane i) (hj : j ∉ qrCells i) :
    cellOf (runLane m i) j = cellOf m j := by
  obtain ⟨a, b, c, d, rfl, hd⟩ := h.exists_qr
  exact cellOf_quarterRound_other m hd hj

/-- What a lane leaves in its cells depends on those cells only. -/
theorem cellOf_runLane_congr {m n : WordMatrix} {i : Instr} {j : Cell} (h : IsLane i)
    (hmn : ∀ k ∈ qrCells i, cellOf m k = cellOf n k) (hj : j ∈ qrCells i) :
    cellOf (runLane m i) j = cellOf (runLane n i) j := by
  obtain ⟨a, b, c, d, rfl, hd⟩ := h.exists_qr
  have ha : cellOf m a = cellOf n a := hmn a (by simp [qrCells])
  have hb : cellOf m b = cellOf n b := hmn b (by simp [qrCells])
  have hc : cellOf m c = cellOf n c := hmn c (by simp [qrCells])
  have hd' : cellOf m d = cellOf n d := hmn d (by simp [qrCells])
  simp only [runLane, cellOf_quarterRound _ hd, ha, hb, hc, hd', hmn j hj]

/-- Two lanes that share no cell: the order does not matter. -/
theorem runLane_comm (m : WordMatrix) {i k : Instr} (hi : IsLane i) (hk : IsLane k)
    (hdisj : (qrCells i).Disjoint (qrCells k)) : runLane (runLane m i) k = runLane (runLane m k) i := by
  have keepsOther {i k : Instr} (hi : IsLane i) (hdisj : (qrCells i).Disjoint (qrCells k)) :
      ∀ j ∈ qrCells k, cellOf (runLane m i) j = cellOf m j :=
    fun j hj => cellOf_runLane_other m hi fun hj' => hdisj hj' hj
  apply matrix_ext
  intro j
  by_cases hji : j ∈ qrCells i
  · rw [cellOf_runLane_other _ hk (hdisj hji), cellOf_runLane_congr hi (keepsOther hk hdisj.symm) hji]
  · rw [cellOf_runLane_other _ hi hji]
    by_cases hjk : j ∈ qrCells k
    · exact cellOf_runLane_congr hk (keepsOther hi hdisj) hjk
    · rw [cellOf_runLane_other _ hk hjk, cellOf_runLane_other _ hi hji, cellOf_runLane_other _ hk hjk]

/-- The lanes of a pass: `QR`s that name no cell twice between them. -/
def DisjointLanes (l : List Instr) : Prop :=
  (∀ i ∈ l, qrCells i ≠ []) ∧ (l.flatMap qrCells).Nodup

theorem disjointLanes_iff (l : List Instr) :
    DisjointLanes l ↔ (∀ i ∈ l, IsLane i) ∧ l.Pairwise fun i k => (qrCells i).Disjoint (qrCells k) := by
  simp only [DisjointLanes, IsLane, List.nodup_flatMap, forall_and, and_assoc]

theorem DisjointLanes.perm {l l' : List Instr} (h : DisjointLanes l) (hp : l'.Perm l) : DisjointLanes l' :=
  ⟨fun i hi => h.1 i (hp.mem_iff.1 hi), (hp.flatMap_right qrCells).nodup_iff.2 h.2⟩

/-- Disjoint lanes may be done in any order. -/
theorem foldl_runLane_perm {l l' : List Instr} (h : DisjointLanes l) (hp : l'.Perm l) (m : WordMatrix) :
    l'.foldl runLane m = l.foldl runLane m := by
  obtain ⟨hlane, hdisj⟩ := (disjointLanes_iff l').1 (h.perm hp)
  have hcomm : l'.Pairwise fun i k => ∀ m, runLane (runLane m i) k = runLane (runLane m k) i :=
    hdisj.imp_of_mem fun hi hk hik m => runLane_comm m (hlane _ hi) (hlane _ hk) hik
  exact hp.foldl_eq' (fun _ hi _ hk m =>
    hcomm.forall_of_forall_of_flip (fun _ _ _ => rfl) (hcomm.imp fun hik m => (hik m).symm) hi hk m) m

theorem cellOf_foldl_runLane_other {l : List Instr} {j : Cell} (hlane : ∀ i ∈ l, IsLane i)
    (hj : ∀ i ∈ l, j ∉ qrCells i) (m : WordMatrix) : cellOf (l.foldl runLane m) j = cellOf m j := by
  induction l generalizing m with
  | nil => rfl
  | cons i rest ih =>
    obtain ⟨hi, hrest⟩ := List.forall_mem_cons.1 hlane
    obtain ⟨hji, hjrest⟩ := List.forall_mem_cons.1 hj
    rw [List.foldl_cons, ih hrest hjrest, cellOf_runLane_other m hi hji]

/-- Each of disjoint lanes leaves in its cells what it would leave there alone: put first, it is followed by lanes that do not
touch them. -/
theorem cellOf_foldl_runLane {l : List Instr} (h : DisjointLanes l) {i : Instr} (hi : i ∈ l) {j : Cell} (hj : j ∈ qrCells i)
    (m : WordMatrix) : cellOf (l.foldl runLane m) j = cellOf (runLane m i) j := by
  have hp : (i :: l.erase i).Perm l := (List.perm_cons_erase hi).symm
  obtain ⟨hlane, hdisj⟩ := (disjointLanes_iff _).1 (h.perm hp)
  rw [← foldl_runLane_perm h hp, List.foldl_cons]
  exact cellOf_foldl_runLane_other (List.forall_mem_cons.1 hlane).2
    (fun k hk hjk => (List.pairwise_cons.1 hdisj).1 k hk hj hjk) _

/-! The two passes (R123, R124). -/

theorem disjointLanes_columnLanes : DisjointLanes columnLanes := by
  unfold DisjointLanes
  decide

theorem disjointLanes_rowLanes : DisjointLanes rowLanes := by
  unfold DisjointLanes
  decide

theorem columnRound_eq_foldl (m : WordMatrix) : columnRound m = columnLanes.foldl runLane m := rfl

theorem rowRound_eq_foldl (m : WordMatrix) : rowRound m = rowLanes.foldl runLane m := rfl

theorem exec_colrnd {s : State} (hc : s.cause = 0) : exec .colrnd s = .next { s with w := columnRound s.w } :=
  unlessFaulted_of_ready hc _

theorem exec_rowrnd {s : State} (hc : s.cause = 0) : exec .rowrnd s = .next { s with w := rowRound s.w } :=
  unlessFaulted_of_ready hc _

/-- The lanes of a pass in any order leave what the pass leaves. -/
theorem inTurn_of_perm_lanes {l lanes : List Instr} (h : DisjointLanes lanes) (hp : l.Perm lanes) {s : State}
    (hc : s.cause = 0) : inTurn l s = .next { s with w := lanes.foldl runLane s.w } := by
  rw [inTurn_lanes ((disjointLanes_iff l).1 (h.perm hp)).1 hc, foldl_runLane_perm h hp]

theorem inTurn_columnLanes {l : List Instr} (hp : l.Perm columnLanes) {s : State} (hc : s.cause = 0) :
    inTurn l s = exec .colrnd s := by
  rw [inTurn_of_perm_lanes disjointLanes_columnLanes hp hc, exec_colrnd hc, columnRound_eq_foldl]

theorem inTurn_rowLanes {l : List Instr} (hp : l.Perm rowLanes) {s : State} (hc : s.cause = 0) :
    inTurn l s = exec .rowrnd s := by
  rw [inTurn_of_perm_lanes disjointLanes_rowLanes hp hc, exec_rowrnd hc, rowRound_eq_foldl]

end Sys2Proof.Machine
end

section
/-! SUPPORT. The double rounds: one after another, and on the zero matrix (spec/42_permutation_core.md R125, R126). -/

namespace Sys2Proof.Machine

open Sys2Proof.Claims

theorem exec_dblrnd {s : State} (hc : s.cause = 0) : exec .dblrnd s = .next { s with w := doubleRound s.w } :=
  unlessFaulted_of_ready hc _

theorem exec_perm {s : State} (hc : s.cause = 0) : exec .perm s = .next (permuteWorking s) :=
  unlessFaulted_of_ready hc _

theorem inTurn_replicate_dblrnd (n : Nat) {s : State} (hc : s.cause = 0) :
    inTurn (List.replicate n .dblrnd) s = .next { s with w := doubleRounds n s.w } := by
  induction n generalizing s with
  | zero => rfl
  | succ n ih =>
    rw [List.replicate_succ, inTurn_cons_of_next (exec_dblrnd hc)]
    exact ih hc

theorem arx_zeroMatrix (t u v : Cell) (r : Nat) : arx zeroMatrix t u v r = zeroMatrix := by
  apply matrix_ext
  intro j
  simp [cellOf_arx, add32, rotl32, xor32]

/-- An ARX step on zeros gives zeros, so every pass does. -/
theorem quarterRound_zeroMatrix (a b c d : Cell) : quarterRound zeroMatrix a b c d = zeroMatrix := by
  simp only [quarterRound, arx_zeroMatrix]

theorem doubleRound_zeroMatrix : doubleRound zeroMatrix = zeroMatrix := by
  simp only [doubleRound, columnRound, rowRound, quarterRound_zeroMatrix]

theorem doubleRounds_zeroMatrix (n : Nat) : doubleRounds n zeroMatrix = zeroMatrix := by
  induction n with
  | zero => rfl
  | succ n ih => rw [doubleRounds, doubleRound_zeroMatrix, ih]

end Sys2Proof.Machine
end

section
/-! SUPPORT. The commands that need `INIT` and reach no memory: what each does after it, and the fault before it
(spec/42_permutation_core.md R120 to R128, spec/60_exceptions.md R164). -/

namespace Sys2Proof.Machine

open Sys2Proof.Claims

theorem checks_of_ready {i : Instr} {s : State} (hc : s.cause = 0) (hi : s.inited = true) (k : Result) :
    unlessFaulted s (whenInited i s k) = k := by
  rw [unlessFaulted_of_ready hc, whenInited_of_inited hi]

theorem exec_ctrw {s : State} (hc : s.cause = 0) (hi : s.inited = true) : exec .ctrw s = .next (writeCounter s) :=
  checks_of_ready hc hi _

theorem exec_ldw {s : State} (hc : s.cause = 0) (hi : s.inited = true) : exec .ldw s = .next (loadWorking s) :=
  checks_of_ready hc hi _

theorem exec_ffwd {s : State} (hc : s.cause = 0) (hi : s.inited = true) : exec .ffwd s = .next (addInitial s) :=
  checks_of_ready hc hi _

theorem exec_block {s : State} (hc : s.cause = 0) (hi : s.inited = true) : exec .block s = .next (makeBlock s) :=
  checks_of_ready hc hi _

theorem faultOf_of_not_inited {i : Instr} {s : State} (hi : s.inited = false) (hop : i.op ∈ [Op.ctrw, .ldw, .ffwd, .block]) :
    faultOf i s = some (3, upperHalf (encode i)) := by
  cases i with
  | ctrw | ldw | ffwd | block => exact if_neg (by simp [hi])
  | _ => simp [Instr.op] at hop

/-- Before `INIT` these commands raise NotInitialized and record the upper half of their word (R161, R164). -/
theorem faultsWith_of_not_inited {i : Instr} {s : State} {info : Word} (hc : s.cause = 0) (hi : s.inited = false)
    (hop : i.op ∈ [Op.ctrw, .ldw, .ffwd, .block]) (hinfo : upperHalf (encode i) = info) : FaultsWith (exec i s) s 3 info :=
  hinfo ▸ faultsWith_of_faultOf hc (faultOf_of_not_inited hi hop)

/-! The counter's words (R121). -/

/-- Byte `k` of the swapped word is byte `3 - k` of the word: the byte that a bit lies in fixes `k`. -/
theorem extractLsb'_bswap32 (x : Word) {k : Nat} (hk : k < 4) :
    (bswap32 x).extractLsb' (8 * k) 8 = x.extractLsb' (8 * (3 - k)) 8 := by
  apply BitVec.eq_of_getLsbD_eq
  intro j hj
  simp only [bswap32, BitVec.getLsbD_extractLsb', BitVec.getLsbD_append, hj, decide_true, Bool.true_and, -Nat.reduceAdd]
  split_ifs <;> simp (disch := omega) only [decide_eq_true, Bool.true_and] <;> congr 1 <;> omega

/-- Under `swapped` the low word has the bytes of the counter's low half in the opposite order. -/
theorem byte_ctrLo_swapped (ctr : DWord) {k : Nat} (hk : k < 4) :
    (ctrLo .swapped ctr).extractLsb' (8 * k) 8 = ctr.extractLsb' (8 * (3 - k)) 8 := by
  rw [ctrLo, extractLsb'_bswap32 _ hk, BitVec.extractLsb'_extractLsb'_of_le (by omega)]

theorem writeCounter_x_counterCells (s : State) :
    cellOf (writeCounter s).x 8 = ctrLo s.cfg.counterEncoding s.ctr ∧
      cellOf (writeCounter s).x 9 = ctrHi s.cfg.counterEncoding s.ctr := by
  simp [cellOf_withCounter]

/-! The block (R128). -/

theorem inTurn_blockSteps {s : State} (hc : s.cause = 0) (hi : s.inited = true) :
    inTurn [.ctrw, .ldw, .perm, .ffwd] s = .next (makeBlock s) := by
  rw [inTurn_cons_of_next (exec_ctrw hc hi), inTurn_cons_of_next (exec_ldw (s := writeCounter s) hc hi),
    inTurn_cons_of_next (exec_perm (s := loadWorking (writeCounter s)) hc)]
  exact inTurn_cons_of_next (exec_ffwd (s := permuteWorking (loadWorking (writeCounter s))) hc hi)

theorem makeBlock_eq (s : State) : makeBlock s =
    { s with x := blockInput s s.ctr, w := permute (blockInput s s.ctr), o := blockOutput s s.ctr } := rfl

/-- A block is computed from the counter, its encoding and the fourteen other cells of `X`, and replaces `W`, `O` and the two
cells: two states that differ in nothing else get the same. -/
theorem makeBlock_congr {s t : State} (hs : t = { s with w := t.w, o := t.o, x := t.x })
    (hx : ∀ j : Cell, j ≠ 8 → j ≠ 9 → cellOf t.x j = cellOf s.x j) : makeBlock t = makeBlock s := by
  have hcfg : t.cfg = s.cfg := by rw [hs]
  have hctr : t.ctr = s.ctr := by rw [hs]
  have hinput : blockInput t s.ctr = blockInput s s.ctr := blockInput_congr _ hcfg hx
  rw [makeBlock_eq t, makeBlock_eq s, hctr, blockOutput_congr hinput, hinput, hs]

end Sys2Proof.Machine
end

section
/-! The obligations of spec/42_permutation_core.md. -/

namespace Sys2Proof.Proofs

open Sys2Proof Sys2Proof.Machine Sys2Proof.Claims

/-- Settles O28: the ten double rounds are `PERM`'s own, and a double round of zeros is zeros. -/
theorem permIsTenDoubleRounds : Obligations.PermIsTenDoubleRounds := by
  unfold Obligations.PermIsTenDoubleRounds
  refine ⟨rfl, fun s hc => ⟨permuteWorking s, exec_perm hc, rfl, inTurn_replicate_dblrnd 10 hc, fun hz i => ?_⟩⟩
  have hw : s.w = zeroMatrix := matrix_ext fun j => (hz j).trans (cellOf_zeroMatrix j).symm
  rw [permuteWorking_w, hw, permute, doubleRounds_zeroMatrix]
  exact cellOf_zeroMatrix i

/-- Settles O29: the lanes of a pass share no cell. -/
theorem lanesInAnyOrder : Obligations.LanesInAnyOrder := by
  unfold Obligations.LanesInAnyOrder
  refine fun s hc => ⟨fun l hp => inTurn_columnLanes hp hc, fun l hp => inTurn_rowLanes hp hc, ?_⟩
  intro a b c d j hj t u ht
  have alone {lanes : List Instr} (h : DisjointLanes lanes) (hi : Instr.qr a b c d ∈ lanes) :
      cellOf (lanes.foldl runLane s.w) j = cellOf t.w j := by
    cases ht.symm.trans (exec_lane (((disjointLanes_iff lanes).1 h).1 _ hi) hc)
    exact cellOf_foldl_runLane h hi hj s.w
  refine ⟨fun hi hu => ?_, fun hi hu => ?_⟩
  · cases hu.symm.trans (exec_colrnd hc)
    exact alone disjointLanes_columnLanes hi
  · cases hu.symm.trans (exec_rowrnd hc)
    exact alone disjointLanes_rowLanes hi

/-- Settles O30: the two cells by the encoding of the counter, and the fault of the table before `INIT`. -/
theorem ctrwWritesCounterCells : Obligations.CtrwWritesCounterCells := by
  unfold Obligations.CtrwWritesCounterCells
  refine ⟨rfl, fun s hc => ⟨fun hi => ?_, fun hi => faultsWith_of_not_inited hc hi (by decide) rfl⟩⟩
  obtain ⟨hlo, hhi⟩ := writeCounter_x_counterCells s
  refine ⟨writeCounter s, exec_ctrw hc hi, rfl, fun j h8 h9 => cellOf_withCounter_other _ _ _ h8 h9, fun he => ?_,
    fun he => ?_⟩
  · rw [he] at hlo hhi
    exact ⟨hlo, hhi⟩
  · rw [he] at hlo hhi
    exact ⟨fun k hk => (congrArg _ hlo).trans (byte_ctrLo_swapped s.ctr hk), hhi⟩

/-- Settles O33: the four effects are `BLOCK`'s own, and a block replaces all that it does not depend on. -/
theorem blockIsItsFourSteps : Obligations.BlockIsItsFourSteps := by
  unfold Obligations.BlockIsItsFourSteps
  refine ⟨rfl, fun s hc => ⟨fun hi => ?_, fun hi => faultsWith_of_not_inited hc hi (by decide) rfl⟩⟩
  have hx : ∀ j : Cell, j ≠ 8 → j ≠ 9 → cellOf (makeBlock s).x j = cellOf s.x j :=
    fun j h8 h9 => cellOf_withCounter_other _ _ _ h8 h9
  refine ⟨makeBlock s, exec_block hc hi, rfl, hx, ?_, ?_, ?_⟩
  · exact inTurn_blockSteps hc hi
  · rw [exec_block (s := makeBlock s) hc hi, makeBlock_congr (s := s) (t := makeBlock s) rfl hx]
  · intro w o x hx'
    rw [exec_block (s := { s with w := w, o := o, x := x }) hc hi,
      makeBlock_congr (s := s) (t := { s with w := w, o := o, x := x }) rfl hx']

/-- Settles O35: both blocks are computed from the same matrix. -/
theorem keystreamPurity : Obligations.KeystreamPurity := by
  unfold Obligations.KeystreamPurity
  intro s s' hc hi hc' hi' hctr he hx
  have hinput : blockInput s s.ctr = blockInput s' s'.ctr := by
    rw [blockInput, blockInput, hctr, he, withCounter_congr _ _ hx]
  refine ⟨_, _, exec_block hc hi, exec_block hc' hi', ?_⟩
  simp only [makeBlock_eq, blockOutput, hinput, and_self]

/-- Settles O25: the pass does its lanes in the order of the list. -/
theorem colrndIsFourQuarterRounds : Obligations.ColrndIsFourQuarterRounds := by
  unfold Obligations.ColrndIsFourQuarterRounds
  exact ⟨rfl, fun s hc => ⟨_, exec_colrnd hc, rfl, (inTurn_columnLanes (.refl _) hc).trans (exec_colrnd hc)⟩⟩

/-- Settles O26: the pass does its lanes in the order of the list. -/
theorem rowrndIsFourQuarterRounds : Obligations.RowrndIsFourQuarterRounds := by
  unfold Obligations.RowrndIsFourQuarterRounds
  exact ⟨rfl, fun s hc => ⟨_, exec_rowrnd hc, rfl, (inTurn_rowLanes (.refl _) hc).trans (exec_rowrnd hc)⟩⟩

/-- Settles O27: the row round is done on the matrix that the column round leaves. -/
theorem dblrndIsColumnThenRow : Obligations.DblrndIsColumnThenRow := by
  unfold Obligations.DblrndIsColumnThenRow
  refine ⟨rfl, fun s hc => ⟨_, exec_dblrnd hc, rfl, ?_⟩⟩
  rw [inTurn_cons_of_next (exec_colrnd hc)]
  exact inTurn_cons_of_next (exec_rowrnd (s := { s with w := columnRound s.w }) hc)

/-- Settles O31: past its checks `LDW` is the copy. -/
theorem ldwCopiesInitialMatrix : Obligations.LdwCopiesInitialMatrix := by
  unfold Obligations.LdwCopiesInitialMatrix
  exact ⟨rfl, fun s hc => ⟨fun hi => exec_ldw hc hi, fun hi => faultsWith_of_not_inited hc hi (by decide) rfl⟩⟩

/-- Settles O32: the sum of two words is modulo 2^32, and each cell has its own. -/
theorem ffwdAddsCellwise : Obligations.FfwdAddsCellwise := by
  unfold Obligations.FfwdAddsCellwise
  refine ⟨rfl, fun s hc => ⟨fun hi => ⟨addInitial s, exec_ffwd hc hi, rfl, fun i => ?_⟩,
    fun hi => faultsWith_of_not_inited hc hi (by decide) rfl⟩⟩
  calc (cellOf (feedForward s.w s.x) i).toNat
      = (add32 (cellOf s.w i) (cellOf s.x i)).toNat := by rw [cellOf_feedForward]
    _ = ((cellOf s.w i).toNat + (cellOf s.x i).toNat) % 2 ^ 32 := BitVec.toNat_add _ _

/-- Settles O34: byte `4i + n` lies in cell `i`, and a byte of a word is its bits shifted down. -/
theorem keystreamIsLittleEndianView : Obligations.KeystreamIsLittleEndianView := by
  unfold Obligations.KeystreamIsLittleEndianView
  intro o i n hn
  have hcell : Fin.ofNat 16 ((4 * i.val + n) / 4) = i := Fin.ext (by simp only [Fin.ofNat]; omega)
  have hbyte : (4 * i.val + n) % 4 = n := by omega
  have hks : ks o (4 * i.val + n) = (o[i]).extractLsb' (8 * n) 8 := by
    rw [ks, hcell, hbyte]
    rfl
  exact ⟨hks, hks.trans BitVec.setWidth_ushiftRight_eq_extractLsb.symm⟩

end Sys2Proof.Proofs
end

section
/-! SUPPORT. Commands in turn with an access that may be refused: the main loop of `COMBINE` written out in commands
(spec/43_cipher_engine.md R143). -/

namespace Sys2Proof.Machine

open Sys2Proof.Claims

theorem inTurn_singleton (i : Instr) (s : State) : inTurn [i] s = exec i s := by
  cases h : exec i s <;> simp only [inTurn, h]

/-- A list of commands after another: it runs from the state the first list answers, and not at all where that is stuck. -/
theorem inTurn_append_of_settle {l l' : List Instr} {s : State} {r : Except Fault State} {f : State → Except Fault State}
    (h : inTurn l s = settle r) (h' : ∀ t, r = .ok t → inTurn l' t = settle (f t)) :
    inTurn (l ++ l') s = settle (r >>= f) := by
  induction l generalizing s with
  | nil =>
    obtain rfl := settle_next.1 h.symm
    exact h' s rfl
  | cons i rest ih =>
    rw [List.cons_append]
    simp only [inTurn] at h ⊢
    cases hs : exec i s with
    | next t =>
      rw [hs] at h
      exact ih h
    | fault e =>
      rw [hs] at h
      cases r with
      | ok t => exact nomatch h
      | error e' => exact h
    | refused e => exact absurd hs (exec_ne_refused i s e)

theorem combineBlock_eq_bind (s : State) :
    combineBlock s = xorBytes Config.blockBytes (makeBlock s) >>= fun t => .ok (incCounter t) := by
  unfold combineBlock
  cases xorBytes Config.blockBytes (makeBlock s) <;> rfl

theorem combineBlocks_succ_eq_bind (n : Nat) (s : State) : combineBlocks (n + 1) s = combineBlocks n s >>= combineBlock := by
  rw [combineBlocks]
  cases combineBlocks n s <;> rfl

theorem combineBuffer_eq_bind (n : Nat) (s : State) :
    combineBuffer n s = combineBlocks (n / 64) { s with pos := 0 } >>= combineTail (n % 64) := by
  rw [combineBuffer, show Config.blockBytes = 64 from rfl]
  cases combineBlocks (n / 64) { s with pos := 0 } <;> rfl

theorem exec_ctrinc {s : State} (hc : s.cause = 0) : exec .ctrinc s = .next (incCounter s) :=
  unlessFaulted_of_ready hc _

/-- `BLOCK` and `XORK m`, where the `m` bytes lie in the buffer. -/
theorem inTurn_block_xork {m : Word} {s : State} (hc : s.cause = 0) (hi : s.inited = true) (hm : m.toNat ≤ 64)
    (hle : s.pos.toNat + m.toNat ≤ s.len.toNat) :
    inTurn [.block, .xork m] s = settle (xorBytes m.toNat (makeBlock s)) := by
  rw [inTurn_cons_of_next (exec_block hc hi), inTurn_singleton]
  exact exec_xork (s := makeBlock s) hc hi hm hle

/-- One turn of the main loop, where a full block of the buffer is left. -/
theorem inTurn_turn {s : State} (hc : s.cause = 0) (hi : s.inited = true) (hle : s.pos.toNat + 64 ≤ s.len.toNat) :
    inTurn [.block, .xork 64, .ctrinc] s = settle (combineBlock s) := by
  rw [combineBlock_eq_bind]
  refine inTurn_append_of_settle (l := [.block, .xork 64]) (l' := [.ctrinc])
    (inTurn_block_xork hc hi (m := 64) (by decide) hle) fun t ht => ?_
  obtain ⟨out, -, rfl⟩ := xorBytes_ok ht
  rw [inTurn_singleton]
  exact exec_ctrinc hc

/-- The turns of the main loop, where the buffer has as many full blocks left. -/
theorem inTurn_turns {n : Nat} {s : State} (hc : s.cause = 0) (hi : s.inited = true)
    (hle : s.pos.toNat + 64 * n ≤ s.len.toNat) :
    inTurn (List.replicate n [.block, .xork 64, .ctrinc]).flatten s = settle (combineBlocks n s) := by
  induction n with
  | zero => rfl
  | succ n ih =>
    rw [List.replicate_succ', List.flatten_concat, combineBlocks_succ_eq_bind]
    refine inTurn_append_of_settle (ih (by omega)) fun t ht => ?_
    obtain ⟨-, hpos, -⟩ := combineBlocks_ok ht (by omega)
    have hlen : t.pos.toNat + 64 ≤ s.len.toNat := by omega
    rw [combineBlocks_frame ht] at hlen ⊢
    exact inTurn_turn hc hi hlen

/-- The commands of the trailing partial block. -/
theorem inTurn_tail {r : Nat} {s : State} (hc : s.cause = 0) (hi : s.inited = true) (hr : r < 64)
    (hle : s.pos.toNat + r ≤ s.len.toNat) :
    inTurn (if r = 0 then [] else [.block, .xork (BitVec.ofNat 32 r)]) s = settle (combineTail r s) := by
  rw [combineTail]
  split
  · rfl
  · have hm : (BitVec.ofNat 32 r).toNat = r := by
      rw [BitVec.toNat_ofNat]
      omega
    rw [inTurn_block_xork hc hi (by omega) (by omega), hm]

theorem inTurn_mainLoop {s : State} (hc : s.cause = 0) (hi : s.inited = true) :
    inTurn (mainLoop s.len.toNat) { s with pos := 0 } = settle (combineBuffer s.len.toNat s) := by
  have hz : ({ s with pos := 0 } : State).pos.toNat = 0 := rfl
  have hblocks : ({ s with pos := 0 } : State).pos.toNat + 64 * (s.len.toNat / 64) ≤ s.len.toNat := by omega
  rw [combineBuffer_eq_bind]
  refine inTurn_append_of_settle (inTurn_turns hc hi hblocks) fun t ht => ?_
  obtain ⟨-, hpos, -⟩ := combineBlocks_ok ht (by omega)
  have hlen : t.pos.toNat + s.len.toNat % 64 ≤ s.len.toNat := by omega
  rw [combineBlocks_frame ht] at hlen ⊢
  exact inTurn_tail hc hi (Nat.mod_lt _ (by decide)) hlen

end Sys2Proof.Machine
end

section
/-! SUPPORT. The faults of `XORK` and `COMBINE` (spec/43_cipher_engine.md R141, R143), and `COMBINE` on what `COMBINE` wrote
(R145). -/

namespace Sys2Proof.Machine

open Sys2Proof.Claims

/-- The operand of `XORK` lies in the lower half of its word. -/
theorem upperHalf_encode_xork (m : Word) : upperHalf (encode (.xork m)) = 0x21000000 := by
  calc upperHalf (encode (.xork m))
      = upperHalf (encode (.xork 0)) := by
        simp only [encode_eq_pack, upperHalf_pack, Instr.op, Instr.fields, noFields]
    _ = 0x21000000 := rfl

theorem faultOf_xork_of_not_inited {m : Word} {s : State} (hi : s.inited = false) :
    faultOf (.xork m) s = some (3, 0x21000000) := by
  rw [← upperHalf_encode_xork m]
  exact if_pos hi

theorem faultOf_xork_of_too_long {m : Word} {s : State} (hi : s.inited = true)
    (h : m.toNat > 64 ∨ s.pos.toNat + m.toNat > s.len.toNat) : faultOf (.xork m) s = some (4, m) :=
  (if_neg (by simp [hi])).trans (if_pos h)

theorem faultOf_combine_of_not_inited {s : State} (hi : s.inited = false) : faultOf .combine s = some (3, 0x22000000) :=
  if_neg (by simp [hi])

/-- `COMBINE` leaves every block as it was: it writes of `X` only the two cells that a block writes anew (R145). -/
theorem CombinesBuffer.blockInput_eq {b : Nat → Byte} {s t : State} (k : CombinesBuffer b s t) (c : DWord) :
    blockInput t c = blockInput s c := by
  have hcfg : t.cfg = s.cfg := by rw [k.frame]
  refine blockInput_congr c hcfg fun j h8 h9 => ?_
  by_cases h0 : s.len = 0
  · obtain ⟨hx, -⟩ := k.empty h0
    rw [hx]
  · obtain ⟨hx, -⟩ := k.block h0
    rw [hx]
    exact cellOf_withCounter_other _ _ _ h8 h9

end Sys2Proof.Machine
end

section
/-! The obligations of spec/43_cipher_engine.md. -/

namespace Sys2Proof.Proofs

open Sys2Proof Sys2Proof.Machine Sys2Proof.Claims

/-- Settles O37: the byte loop on provided bytes, and the two faults of the table. -/
theorem xorkCombinesBytes : Obligations.XorkCombinesBytes := by
  unfold Obligations.XorkCombinesBytes
  refine fun m => ⟨?_, fun s hc => ⟨fun b hi hm hle hin => ?_, fun hi => ?_, fun hi hlong => ?_⟩⟩
  · simp [encode_eq_or, Instr.op, Op.code, Instr.fields, noFields]
  · obtain ⟨out, ht, hbytes, hrest⟩ := exec_xork_of_bytes hc hi hm hle hin
    refine ⟨_, ht, rfl, ?_, hbytes, hrest⟩
    have hlen := s.len.isLt
    show (s.pos + m.setWidth 64).toNat = _
    rw [BitVec.toNat_add, BitVec.toNat_setWidth]
    omega
  · exact faultsWith_of_faultOf hc (faultOf_xork_of_not_inited hi)
  · exact faultsWith_of_faultOf hc (faultOf_xork_of_too_long hi hlong)

/-- Settles O40: past its check `COMBINE` is the loop of commands, turn by turn. -/
theorem combineIsItsMainLoop : Obligations.CombineIsItsMainLoop := by
  unfold Obligations.CombineIsItsMainLoop
  refine ⟨rfl, fun s hc => ⟨fun hi => ?_, fun hi => ?_⟩⟩
  · rw [exec_combine hc hi, inTurn_mainLoop hc hi]
  · exact faultsWith_of_faultOf hc (faultOf_combine_of_not_inited hi)

/-- Settles O41: what `COMBINE` leaves of a provided buffer, with each block by its counter. -/
theorem combineClosedForm : Obligations.CombineClosedForm := by
  unfold Obligations.CombineClosedForm
  intro s b hc hi hin hroom
  obtain ⟨t, ht, k⟩ := exec_combine_of_bytes hc hi hin hroom
  have hpos : t.pos = s.len := by rw [k.frame]
  refine ⟨t, ht, ?_, fun j hj => ?_, k.rest, k.ctr, hpos, k.empty, fun h0 => ?_⟩
  · rw [hpos]
    exact k.frame
  · rw [blockAt_o hc hi]
    exact k.bytes j hj
  · exact HoldsBlock.matrices_eq (k.block h0) (holdsBlock_blockAt hc hi _)

/-- Settles O42: both passes combine with the keystream of the same blocks, and a byte combined twice is itself. -/
theorem combineIsAnInvolution : Obligations.CombineIsAnInvolution := by
  unfold Obligations.CombineIsAnInvolution
  intro s hc hi hin hroom
  choose! b hb using fun j hj => Option.isSome_iff_exists.1 (hin j hj)
  obtain ⟨t, ht, k⟩ := exec_combine_of_bytes hc hi hb hroom
  refine ⟨t, ht, fun inp hinp => ?_⟩
  have hlen : t.len = s.len := by rw [k.frame]
  have hcause : t.cause = 0 := by rwa [k.frame]
  have hinited : t.inited = true := by rwa [k.frame]
  have hroom' : t.len.toNat ≤ t.outRoom := by rwa [k.frame]
  obtain ⟨u, hu, k'⟩ := exec_combine_of_bytes (s := { t with inp := inp, ctr := s.ctr }) hcause hinited
    (fun j hj => (hinp j (hlen ▸ hj)).trans (k.bytes j (hlen ▸ hj))) hroom'
  refine ⟨u, hu, fun j hj => ?_⟩
  have hblock (c : DWord) : blockOutput { t with inp := inp, ctr := s.ctr } c = blockOutput s c :=
    blockOutput_congr (k.blockInput_eq c)
  rw [k'.bytes j (hlen.symm ▸ hj), hblock, BitVec.xor_assoc, BitVec.xor_self, BitVec.xor_zero, hb j hj]

/-- Settles O36: outside the fault state `CTRINC` has no other check. -/
theorem ctrincAddsOne : Obligations.CtrincAddsOne := by
  unfold Obligations.CtrincAddsOne
  exact ⟨rfl, fun s hc => ⟨incCounter s, exec_ctrinc hc, rfl, BitVec.toNat_add s.ctr 1⟩⟩

end Sys2Proof.Proofs
end

section
/-! SUPPORT. The fault state (spec/60_exceptions.md R161, R165, R168, R169): which commands leave `CAUSE` and `FINFO` as they were,
what the fault state executes, and what every action without a reset keeps of it. -/

namespace Sys2Proof.Machine

open Sys2Proof.Claims

theorem Cause.code_mem_listed (c : Cause) : c.code ∈ [1#4, 2#4, 3#4, 4#4] := by
  cases c <;> decide

/-- A command that performs its work enters no fault: `INIT`, the only one that writes `STATUS`, sets another bit of it. -/
theorem cause_eq_of_performs {i : Instr} {s t : State} (h : Performs s t i) : t.cause = s.cause := by
  have hst := (performs_writesOnlyItsOwn h).status
  split at hst
  · rw [State.cause, hst, causeOf_setInited, State.cause]
  · rw [State.cause, hst, State.cause]

/-- The matrix that a selector of `RDM` names, by the selector's value (spec/30_encoding.md R72). -/
theorem selectMatrix_of_le {sel : Fin 16} (s : State) (h : sel.val ≤ 2) :
    selectMatrix s sel = some (if sel.val = 0 then s.w else if sel.val = 1 then s.x else s.o) := by
  have hsel : sel = 0 ∨ sel = 1 ∨ sel = 2 := by omega
  rcases hsel with rfl | rfl | rfl <;> rfl

/-- In the fault state a command word has no effect at all, unless it is that of a legal `RDCR` or `RDM` (R168). -/
theorem runWord_of_faulted {cw : CommandWord} {s : State} (hs : s.faulted)
    (hcw : ∀ i, decode cw = .command i → readsInFaultState i = false) : runWord cw s = .next s := by
  cases hd : decode cw with
  | command i =>
    simp only [runWord, hd]
    exact exec_of_faulted hs (hcw i hd)
  | illegal why =>
    rw [runWord_of_illegal ⟨why, hd⟩]
    exact unlessFaulted_of_faulted hs _

/-- The fault that `s` records is still recorded in `t`, and the host's list is the same. -/
structure KeepsFault (s t : State) : Prop where
  cause : t.cause = s.cause
  finfo : t.finfo = s.finfo
  pending : t.pending = s.pending

theorem keepsFault_refl (s : State) : KeepsFault s s := ⟨rfl, rfl, rfl⟩

/-- In the fault state a command is ignored, or performs its work: there is no second fault (R168). -/
theorem exec_keepsFault {i : Instr} {s t : State} (hs : s.faulted) (h : exec i s = .next t) : KeepsFault s t := by
  rcases exec_next h with ⟨-, rfl⟩ | ⟨hc, -⟩ | hp
  · exact keepsFault_refl t
  · exact absurd hc hs
  · have f := performs_writesOnlyItsOwn hp
    exact ⟨cause_eq_of_performs hp, f.finfo, f.pending⟩

theorem runWord_keepsFault {cw : CommandWord} {s t : State} (hs : s.faulted) (h : runWord cw s = .next t) :
    KeepsFault s t := by
  cases hd : decode cw with
  | command i =>
    simp only [runWord, hd] at h
    exact exec_keepsFault hs h
  | illegal why =>
    rw [runWord_of_faulted hs (by simp [hd])] at h
    cases h
    exact keepsFault_refl s

/-- No change of the host's memories touches a register of the unit. -/
theorem setMemory_keepsFault (s : State) (space : Space) (m : Memory) : KeepsFault s (s.setMemory space m) := by
  cases space <;> exact ⟨rfl, rfl, rfl⟩

/-- Every action of the host that has no reset in it keeps the fault state, with what the first fault recorded, and takes one
entry off the host's list (R168, R169). -/
theorem step_keepsFault {s t : State} (hs : s.faulted) (h : step s = .next t)
    (hreset : ∀ e rest, s.pending = e :: rest → e.resets = false) : KeepsFault s.consume t := by
  have hs' : s.consume.faulted := hs
  unfold step at h
  cases hp : s.pending with
  | nil => rw [hp] at h; cases h
  | cons e rest =>
    have he := hreset e rest hp
    rw [hp] at h
    cases e with
    | command cw => exact runWord_keepsFault hs' h
    | commandWhileHostWrites cw key inp =>
      obtain ⟨u, hu, rfl⟩ := drawing_next.1 h
      obtain ⟨hcause, hfinfo, hpending⟩ := runWord_keepsFault (s := { s.consume with key := key, inp := inp }) hs' hu
      exact ⟨hcause, hfinfo, hpending⟩
    | commandInPlace cw =>
      obtain ⟨u, hu, rfl⟩ := inOneStorage_next.1 h
      obtain ⟨hcause, hfinfo, hpending⟩ := runWord_keepsFault (s := { s.consume with out := s.consume.inp }) hs' hu
      exact ⟨hcause, hfinfo, hpending⟩
    | hostWrite space addr v => cases h; exact setMemory_keepsFault _ _ _
    | hostWithdraw space addr => cases h; exact setMemory_keepsFault _ _ _
    | provideOut room => cases h; exact ⟨rfl, rfl, rfl⟩
    | reset | commandCutByReset | commandWhileHostWritesCutByReset | commandInPlaceCutByReset => cases he

/-- A run that ends after one step more takes that step and goes on from its state. -/
theorem runsTo_succ {k : Nat} {s t : State} : RunsTo (k + 1) s t ↔ ∃ u, step s = .next u ∧ RunsTo k u t := by
  unfold RunsTo
  rw [run_succ]
  cases step s <;> simp

/-- A host that resets the unit nowhere in its list does not do so in its next action, nor in what is left of the list. -/
theorem no_reset_of_willReset {s : State} (h : s.willReset = false) :
    (∀ e rest, s.pending = e :: rest → e.resets = false) ∧ s.pending.tail.any HostEvent.resets = false := by
  rw [State.willReset] at h
  cases hp : s.pending with
  | nil => simp
  | cons e rest =>
    rw [hp, List.any_cons, Bool.or_eq_false_iff] at h
    obtain ⟨he, hrest⟩ := h
    refine ⟨?_, hrest⟩
    rintro _ _ ⟨⟩
    exact he

/-- Without a reset in the host's list, a run from the fault state ends in the fault state (R168, R169). -/
theorem runsTo_faulted {k : Nat} {s t : State} (hs : s.faulted) (hreset : s.willReset = false) (h : RunsTo k s t) :
    t.faulted := by
  induction k generalizing s with
  | zero =>
    rw [RunsTo, run_zero] at h
    cases h
    exact hs
  | succ k ih =>
    obtain ⟨u, hu, hrun⟩ := runsTo_succ.1 h
    obtain ⟨hnow, hlater⟩ := no_reset_of_willReset hreset
    obtain ⟨hcause, -, hpending⟩ := step_keepsFault hs hu hnow
    refine ih (s := u) ?_ ?_ hrun
    · exact ne_of_eq_of_ne hcause hs
    · rw [State.willReset, hpending]
      exact hlater

end Sys2Proof.Machine
end

section
/-! The obligations of spec/60_exceptions.md. -/

namespace Sys2Proof.Proofs

open Sys2Proof Sys2Proof.Machine Sys2Proof.Claims

/-- Settles O9: a fault of the table is entered, and a command without one that gets through has performed its work. -/
theorem faultTable : Obligations.FaultTable := by
  unfold Obligations.FaultTable
  refine fun i s hc => ⟨fun code info hf => faultsWith_of_faultOf hc hf, fun hf t ht => ?_⟩
  rcases exec_next ht with ⟨hs, -⟩ | ⟨-, c, info, hf', -⟩ | hp
  · exact absurd hc hs
  · exact nomatch hf.symm.trans hf'
  · exact ⟨(cause_eq_of_performs hp).trans hc, (performs_writesOnlyItsOwn hp).finfo⟩

/-- Settles O10: of what a command can do, only fault entry changes `CAUSE`. -/
theorem faultEntryIsPrecise : Obligations.FaultEntryIsPrecise := by
  unfold Obligations.FaultEntryIsPrecise
  intro i s t h hne
  rcases exec_next h with ⟨-, rfl⟩ | ⟨hc, c, info, -, rfl⟩ | hp
  · exact absurd rfl hne
  · refine ⟨hc, c.code, info, c.code_mem_listed, ?_⟩
    rw [h]
    exact faultsWith_raise c info s
  · exact absurd (cause_eq_of_performs hp) hne

/-- Settles O11: a legal read executes as it does outside the fault state, and any other word meets the check of `CAUSE`. -/
theorem faultStateIgnoresCommands : Obligations.FaultStateIgnoresCommands := by
  unfold Obligations.FaultStateIgnoresCommands
  refine ⟨fun s hs hfinal => hs hfinal.2, fun s cw rest hp hs => ?_⟩
  rw [step_command hp]
  refine ⟨?_, ?_, runWord_of_faulted (s := { s with pending := rest }) hs⟩
  · rintro cr rfl hcr
    obtain ⟨v, hv⟩ := Option.isSome_iff_exists.1 ((readCR_isSome_iff s cr).2 hcr)
    rw [runWord_encode]
    exact ⟨v, hv, exec_rdcr hv⟩
  · rintro a sel rfl hsel
    rw [runWord_encode, exec_rdm (selectMatrix_of_le _ hsel)]
    simp only [apply_ite (cellOf · a)]
    rfl

/-- Settles O12: an action without a reset keeps what the first fault recorded. -/
theorem onlyResetLeavesFaultState : Obligations.OnlyResetLeavesFaultState := by
  unfold Obligations.OnlyResetLeavesFaultState
  intro s t hs h hreset
  obtain ⟨hcause, hfinfo, -⟩ := step_keepsFault hs h hreset
  exact ⟨hcause, hfinfo⟩

/-- Settles O13: a run without a reset ends in the fault state, which is not final. -/
theorem faultedRunNeverEndsRight : Obligations.FaultedRunNeverEndsRight := by
  unfold Obligations.FaultedRunNeverEndsRight
  intro k s t hs hreset h hfinal
  exact runsTo_faulted hs hreset h hfinal.2

end Sys2Proof.Proofs
end

section
/-! SUPPORT. A run of a list of commands is those commands in turn (spec/70_reset_and_hazards.md R194). -/

namespace Sys2Proof.Machine

open Sys2Proof.Claims

/-- The host's list while it issues the words of the given commands. -/
def wordsOf (is : List Instr) : List HostEvent :=
  is.map fun i => .command (encode i)

/-- Each step executes the head of the list, whatever stands behind it, and takes it off. -/
theorem run_wordsOf (is : List Instr) (s : State) :
    Host.Core.run Sys2Proof.core is.length { s with pending := wordsOf is } = withList [] (inTurn is s) := by
  induction is generalizing s with
  | nil => exact run_zero _
  | cons i is ih =>
    have hstep : step { s with pending := wordsOf (i :: is) } = withList (wordsOf is) (exec i s) := by
      rw [step_command (s := { s with pending := wordsOf (i :: is) }) rfl, runWord_encode]
      exact exec_withList i s (wordsOf is)
    rw [List.length_cons, run_succ, hstep, inTurn]
    cases exec i s with
    | next t => exact ih t
    | fault f => rfl
    | refused r => rfl

end Sys2Proof.Machine
end

section
/-! SUPPORT. A write of one byte by the host (spec/70_reset_and_hazards.md R194). -/

namespace Sys2Proof.Machine

theorem memory_setMemory (s : State) (space space' : Space) (m : Memory) :
    (s.setMemory space m).memory space' = if space' = space then m else s.memory space' := by
  cases space <;> cases space' <;> rfl

theorem setMemory_frame (s : State) (space : Space) (m : Memory) :
    s.setMemory space m = { s with
      key := (s.setMemory space m).key, inp := (s.setMemory space m).inp, out := (s.setMemory space m).out } := by
  cases space <;> rfl

theorem step_hostWrite {s : State} {space : Space} {addr : DWord} {v : Byte} {rest : List HostEvent}
    (h : s.pending = .hostWrite space addr v :: rest) :
    step s = .next (hostWrite space addr v { s with pending := rest }) := by
  rw [step, h, ← consume_of_pending h]

theorem read_memory_hostWrite (s : State) (space space' : Space) (addr : DWord) (v : Byte) (a : Nat) :
    Memory.read ((hostWrite space addr v s).memory space') a =
      if space' = space ∧ a = addr.toNat then some v else Memory.read (s.memory space') a := by
  rw [hostWrite, memory_setMemory]
  by_cases hs : space' = space
  · subst hs
    simp [Memory.read_write, eq_comm]
  · simp [hs]

end Sys2Proof.Machine
end

section
/-! SUPPORT. A command that reset abandons (spec/70_reset_and_hazards.md R180): which OUT bytes it has written, for `XORK`, for
`COMBINE`, and for a word that writes none. -/

namespace Sys2Proof.Machine

open Sys2Proof.Claims

/-! The three actions of the host that have such a command in them. -/

theorem step_cutByReset {s : State} {cw : CommandWord} {n : Nat} {rest : List HostEvent}
    (h : s.pending = .commandCutByReset cw n :: rest) : step s = cutByReset cw n { s with pending := rest } := by
  rw [step, h, ← consume_of_pending h]

theorem step_cutWhileHostWrites {s : State} {cw : CommandWord} {key inp : Memory} {n : Nat} {rest : List HostEvent}
    (h : s.pending = .commandWhileHostWritesCutByReset cw key inp n :: rest) :
    step s = drawing key inp (cutByReset cw n) { s with pending := rest } := by
  rw [step, h, ← consume_of_pending h, ← cutWhileHostWrites]

theorem step_cutInPlace {s : State} {cw : CommandWord} {n : Nat} {rest : List HostEvent}
    (h : s.pending = .commandInPlaceCutByReset cw n :: rest) :
    step s = inOneStorage (cutByReset cw n) { s with pending := rest } := by
  rw [step, h, ← consume_of_pending h, ← cutInPlace]

/-! The reset of a command that is part way. -/

theorem resetUnit_eq_resetFrom (s : State) : resetUnit s = ResetFrom s s.out s.pending := rfl

theorem cutByReset_encode {i : Instr} {n : Nat} {s t : State} (h : partWay i n s = .ok t) :
    cutByReset (encode i) n s = .next (ResetFrom s t.out s.pending) := by
  simp only [cutByReset, decode_encode, h]
  rw [partWay_frame h]
  rfl

theorem cutByReset_of_illegal {cw : CommandWord} {why : Illegal} (n : Nat) (s : State) (h : decode cw = .illegal why) :
    cutByReset cw n s = .next (ResetFrom s s.out s.pending) := by
  simp only [cutByReset, h, resetUnit_eq_resetFrom]

/-! A word that writes no OUT byte. -/

/-- The command writes no OUT byte: it is ignored in the fault state, it is not one of the two that write OUT, or it raises a
fault (R168, spec/10_state.md R20). -/
def WritesNoOut (i : Instr) (s : State) : Prop :=
  s.cause ≠ 0 ∨ i.op ∉ [Op.xork, .combine] ∨ faultOf i s ≠ none

theorem op_mem_writers_iff (i : Instr) : i.op ∈ [Op.xork, .combine] ↔ (∃ m, i = .xork m) ∨ i = .combine := by
  cases i <;> simp [Instr.op]

/-- No check of a command looks at the host's memories or at its list. -/
theorem WritesNoOut.withMemories {i : Instr} {s : State} (h : WritesNoOut i s) (key inp out : Memory)
    (rest : List HostEvent) :
    WritesNoOut i { s with key := key, inp := inp, out := out, pending := rest } := by
  have hfault : faultOf i { s with key := key, inp := inp, out := out, pending := rest } = faultOf i s := by
    cases i <;> rfl
  exact h.imp_right fun h => h.imp_right fun h => hfault.trans_ne h

theorem partWay_of_writesNoOut {i : Instr} {s : State} (n : Nat) (h : WritesNoOut i s) : partWay i n s = .ok s := by
  have faults (hc : s.cause = 0) (hop : i.op ∈ [Op.xork, .combine]) : faultOf i s ≠ none :=
    (h.resolve_left (not_not.2 hc)).resolve_left (not_not.2 hop)
  cases i with
  | xork m =>
    refine if_pos ?_
    by_contra hpass
    obtain ⟨hc, hi, hl⟩ : s.cause = 0 ∧ s.inited = true ∧ lengthAllowed s m = true := by
      simpa only [not_or, not_not] using hpass
    exact faults hc (by simp [Instr.op]) (faultOf_xork_of_allowed hi hl)
  | combine =>
    refine if_pos ?_
    by_contra hpass
    obtain ⟨hc, hi⟩ : s.cause = 0 ∧ s.inited = true := by simpa only [not_or, not_not] using hpass
    exact faults hc (by simp [Instr.op]) (if_pos hi)
  | _ => rfl

theorem cutByReset_of_writesNoOut {i : Instr} {s : State} (n : Nat) (h : WritesNoOut i s) :
    cutByReset (encode i) n s = .next (ResetFrom s s.out s.pending) :=
  cutByReset_encode (partWay_of_writesNoOut n h)

/-! `XORK` and `COMBINE`. -/

/-- An `XORK` that is abandoned needs and combines its first bytes only (R141). -/
theorem cutByReset_xork_of_bytes {m : Word} {n : Nat} {s : State} {b : Nat → Byte} (hc : s.cause = 0)
    (hi : s.inited = true) (hm : m.toNat ≤ 64) (hle : s.pos.toNat + m.toNat ≤ s.len.toNat)
    (hin : ∀ k < min n m.toNat, Memory.read s.inp (s.pos.toNat + k) = some (b k) ∧ s.pos.toNat + k < s.outRoom) :
    ∃ out, cutByReset (encode (.xork m)) n s = .next (ResetFrom s out s.pending) ∧
      (∀ k < min n m.toNat, Memory.read out (s.pos.toNat + k) = some (b k ^^^ keystream s.o k)) ∧
      ∀ a, a < s.pos.toNat ∨ s.pos.toNat + min n m.toNat ≤ a → Memory.read out a = Memory.read s.out a := by
  obtain ⟨t, ht⟩ := xorBytes_total (m := min n m.toNat) (s := s) fun k hk => by
    obtain ⟨hb, hroom⟩ := hin k hk
    exact ⟨by rw [hb]; rfl, hroom⟩
  have hcut : cutByReset (encode (.xork m)) n s = .next (ResetFrom s t.out s.pending) :=
    cutByReset_encode ((partWay_xork n hc hi ((lengthAllowed_iff s m).2 ⟨hm, hle⟩)).trans ht)
  obtain ⟨out, hout, rfl⟩ := xorBytes_ok ht
  obtain ⟨hrange, hrest, -⟩ := combineBytes_ok hout
  refine ⟨out, hcut, fun k hk => ?_, hrest⟩
  obtain ⟨-, v, hv, hw⟩ := hrange k hk
  obtain rfl : b k = v := Option.some.inj ((hin k hk).1.symm.trans hv)
  rw [hw, ks_eq_keystream _ (by omega), xor8]

/-- A `COMBINE` that is abandoned needs and combines the first bytes of its buffer only (R143). -/
theorem cutByReset_combine_of_bytes {n : Nat} {s : State} {b : Nat → Byte} (hc : s.cause = 0) (hi : s.inited = true)
    (hin : ∀ j < min n s.len.toNat, Memory.read s.inp j = some (b j) ∧ j < s.outRoom) :
    ∃ out, cutByReset (encode .combine) n s = .next (ResetFrom s out s.pending) ∧
      (∀ j < min n s.len.toNat, Memory.read out j =
        some (b j ^^^ keystream (blockOutput s (s.ctr + BitVec.ofNat 64 (j / 64))) (j % 64))) ∧
      ∀ a, min n s.len.toNat ≤ a → Memory.read out a = Memory.read s.out a := by
  have hlt : min n s.len.toNat < 2 ^ 64 := (min_le_right _ _).trans_lt s.len.isLt
  obtain ⟨t, ht⟩ := combineBuffer_total (s := s) hlt fun j hj => by
    obtain ⟨hb, hroom⟩ := hin j hj
    exact ⟨by rw [hb]; rfl, hroom⟩
  obtain ⟨-, -, -, kout, krest, -⟩ := combineBuffer_ok ht hlt
  refine ⟨t.out, cutByReset_encode ((partWay_combine n hc hi).trans ht), fun j hj => ?_, krest⟩
  obtain ⟨-, v, hv, hw⟩ := kout j hj
  obtain rfl : b j = v := Option.some.inj ((hin j hj).1.symm.trans hv)
  rw [hw, ks_eq_keystream _ (Nat.mod_lt _ (by decide)), xor8]

/-- On the first bytes of a buffer `COMBINE` writes what it writes on the whole of it, and nothing else (R143). -/
theorem combineBuffer_of_le {k n : Nat} {s t : State} (h : combineBuffer n s = .ok t) (hk : k ≤ n) (hn : n < 2 ^ 64) :
    ∃ u, combineBuffer k s = .ok u ∧ (∀ a < k, Memory.read u.out a = Memory.read t.out a) ∧
      ∀ a, k ≤ a → Memory.read u.out a = Memory.read s.out a := by
  obtain ⟨-, -, -, kout, -⟩ := combineBuffer_ok h hn
  obtain ⟨u, hu⟩ := combineBuffer_total (s := s) (hk.trans_lt hn) fun j hj => by
    obtain ⟨hroom, v, hv, -⟩ := kout j (hj.trans_le hk)
    exact ⟨by rw [hv]; rfl, hroom⟩
  obtain ⟨-, -, -, kout', krest', -⟩ := combineBuffer_ok hu (hk.trans_lt hn)
  refine ⟨u, hu, fun a ha => ?_, krest'⟩
  obtain ⟨-, v, hv, hw⟩ := kout a (ha.trans_le hk)
  obtain ⟨-, v', hv', hw'⟩ := kout' a ha
  obtain rfl : v = v' := Option.some.inj (hv.symm.trans hv')
  rw [hw, hw']

/-- What an abandoned `COMBINE` has written is what the whole command, where it gets through, writes there. -/
theorem cutByReset_combine_of_exec {n : Nat} {s t : State} (hc : s.cause = 0) (hi : s.inited = true)
    (h : exec .combine s = .next t) :
    ∃ out, cutByReset (encode .combine) n s = .next (ResetFrom s out s.pending) ∧
      (∀ a < min n s.len.toNat, Memory.read out a = Memory.read t.out a) ∧
      ∀ a, min n s.len.toNat ≤ a → Memory.read out a = Memory.read s.out a := by
  rw [exec_combine hc hi, settle_next] at h
  obtain ⟨u, hu, hbytes, hrest⟩ := combineBuffer_of_le h (min_le_right n _) s.len.isLt
  exact ⟨u.out, cutByReset_encode ((partWay_combine n hc hi).trans hu), hbytes, hrest⟩

end Sys2Proof.Machine
end

section
/-! The obligations of spec/70_reset_and_hazards.md. -/

namespace Sys2Proof.Proofs

open Sys2Proof Sys2Proof.Machine Sys2Proof.Claims

/-- Settles O8: the command at the head of the list is executed and taken off it, and the others follow in the same way. -/
theorem runOfCommandsIsInTurn : Obligations.RunOfCommandsIsInTurn :=
  run_wordsOf

/-- Settles O15: the command that is part way, by what it is. -/
theorem resetAbandonsCommand : Obligations.ResetAbandonsCommand := by
  unfold Obligations.ResetAbandonsCommand
  intro s i n rest hp
  rw [step_cutByReset hp]
  refine ⟨?_, ?_, fun hxork hcombine => ?_⟩
  · rintro m b rfl hc hi hm hle hin
    exact cutByReset_xork_of_bytes (s := { s with pending := rest }) hc hi hm hle hin
  · rintro rfl hc hi t ht
    have ht' : exec .combine { s with pending := rest } = .next { t with pending := rest } := by
      rw [exec_withList, ht, withList]
    exact cutByReset_combine_of_exec (t := { t with pending := rest }) hc hi ht'
  · have hop : i.op ∉ [Op.xork, .combine] := mt (op_mem_writers_iff i).1 (by simp [hxork, hcombine])
    exact cutByReset_of_writesNoOut (s := { s with pending := rest }) n (.inr (.inl hop))

/-- Settles O53: the abandoned command on a copy of IN, whose OUT both spaces then hold. -/
theorem resetAbandonsInPlaceCommand : Obligations.ResetAbandonsInPlaceCommand := by
  unfold Obligations.ResetAbandonsInPlaceCommand
  intro s n rest
  refine ⟨fun m b hp hc hi hm hle hin => ?_, fun b hp hc hi hin => ?_, fun i hp h => ?_, fun cw why hp hd => ?_⟩
  · obtain ⟨mem, hcut, hbytes, hrest⟩ :=
      cutByReset_xork_of_bytes (s := { s with out := s.inp, pending := rest }) hc hi hm hle hin
    exact ⟨mem, (step_cutInPlace hp).trans (inOneStorage_next.2 ⟨_, hcut, rfl⟩), hbytes, hrest⟩
  · obtain ⟨mem, hcut, hbytes, hrest⟩ :=
      cutByReset_combine_of_bytes (s := { s with out := s.inp, pending := rest }) hc hi hin
    refine ⟨mem, (step_cutInPlace hp).trans (inOneStorage_next.2 ⟨_, hcut, rfl⟩), fun j hj => ?_, hrest⟩
    rw [blockAt_o hc hi]
    exact hbytes j hj
  · have hno := WritesNoOut.withMemories h s.key s.inp s.inp rest
    exact (step_cutInPlace hp).trans (inOneStorage_next.2 ⟨_, cutByReset_of_writesNoOut n hno, rfl⟩)
  · exact (step_cutInPlace hp).trans (inOneStorage_next.2 ⟨_, cutByReset_of_illegal n _ hd, rfl⟩)

/-- Settles O54: the abandoned command on the drawn bytes, with KEY and IN afterwards as before it. -/
theorem resetAbandonsDisturbedCommand : Obligations.ResetAbandonsDisturbedCommand := by
  unfold Obligations.ResetAbandonsDisturbedCommand
  intro s key inp n rest
  refine ⟨fun m d hp hc hi hm hle hin => ?_, fun d hp hc hi hin => ?_, fun i hp h => ?_, fun cw why hp hd => ?_⟩
  · obtain ⟨out, hcut, hbytes, hrest⟩ :=
      cutByReset_xork_of_bytes (s := { s with key := key, inp := inp, pending := rest }) hc hi hm hle hin
    exact ⟨out, (step_cutWhileHostWrites hp).trans (drawing_next.2 ⟨_, hcut, rfl⟩), hbytes, hrest⟩
  · obtain ⟨out, hcut, hbytes, hrest⟩ :=
      cutByReset_combine_of_bytes (s := { s with key := key, inp := inp, pending := rest }) hc hi hin
    refine ⟨out, (step_cutWhileHostWrites hp).trans (drawing_next.2 ⟨_, hcut, rfl⟩), fun j hj => ?_, hrest⟩
    rw [blockAt_o hc hi]
    exact hbytes j hj
  · have hno := WritesNoOut.withMemories h key inp s.out rest
    exact (step_cutWhileHostWrites hp).trans (drawing_next.2 ⟨_, cutByReset_of_writesNoOut n hno, rfl⟩)
  · exact (step_cutWhileHostWrites hp).trans (drawing_next.2 ⟨_, cutByReset_of_illegal n _ hd, rfl⟩)

/-- Settles O7, by the first case of the step. -/
theorem stepEndsWithTheList : Obligations.StepEndsWithTheList := by
  unfold Obligations.StepEndsWithTheList
  intro s h
  rw [step, h]

/-- Settles O16: a read of any byte of any space after the write. -/
theorem hostWritesItsMemoryOnly : Obligations.HostWritesItsMemoryOnly := by
  unfold Obligations.HostWritesItsMemoryOnly
  intro s space addr v rest hp
  refine ⟨_, step_hostWrite hp, setMemory_frame _ _ _, ?_, fun space' a h => ?_⟩
  · rw [read_memory_hostWrite, if_pos ⟨rfl, rfl⟩]
  · rw [read_memory_hostWrite, if_neg (by tauto)]
    rfl

end Sys2Proof.Proofs
end
